-- ==== Sys2Proof/Word.lean ====
section
/-! DEFINITION. The two bit widths the spec names: the 32-bit CSR and command word (XLEN, `00_scope.md` R8) and the
8-bit byte of BSMEM or sample of PIXMEM (SAMPLE_BITS, R8; `20_memory.md` R60, R65). -/

namespace Sys2Proof

/-- A CSR or a command word (R8: XLEN = 32). -/
abbrev Word := BitVec 32

/-- A stream byte or a pixel sample, unsigned (R8: SAMPLE_BITS = 8). -/
abbrev Byte := BitVec 8

end Sys2Proof
end

