-- ==== Sys2Proof/Syntax.lean ====
section
/-! DEFINITION. The commands of the opcode map (`30_encoding.md` R81), one constructor per row of
`spec/opcode_table.json`, with their operands as R82 reads them: unsigned numbers with no extension and no scaling. -/

namespace Sys2Proof

/-- The four 2-bit shift codes of HPEL (`30_encoding.md` R89). `invalid` is the code 0b10, which is a legal encoding
of the command and makes it fail with BAD_PARAM. -/
inductive ShiftCode where
  | zero
  | plusOne
  | invalid
  | minusOne
deriving DecidableEq, Repr

/-- The commands (R81). Symbols, contexts, counts and descriptor indices are numbers; `Instr.wf` bounds them by the
width of their field. -/
inductive Instr where
  /-- OP 0x00: completes without any other effect (`40_bitreader.md` R101). -/
  | nop
  /-- OP 0x01: the document's ReadBit (R102). -/
  | rdbit
  /-- OP 0x02: the document's ReadBits(n) (R103). -/
  | rdbits (n : Nat)
  /-- OP 0x03: the document's PeekBits(PEEK_OFF, n) (R104). -/
  | pkbits (n : Nat)
  /-- OP 0x10: Encode2(totalZeros, totalCoeffs) (`41_vlc.md` R126). -/
  | encTz (tz tc : Nat)
  /-- OP 0x11: Decode2 of the total-zeros scheme under the context totalCoeffs (R127). -/
  | decTz (tc : Nat)
  /-- OP 0x12: Encode2(runBefore, zerosLeft) (R128). -/
  | encRb (rb zl : Nat)
  /-- OP 0x13: Decode2 of the run-before scheme under the context zerosLeft (R129). -/
  | decRb (zl : Nat)
  /-- OP 0x14: the unsupported single-symbol Decode() (R130). -/
  | dec1
  /-- OP 0x20: SumSquaredDiff of the windows of descriptors p and q (`42_pixel.md` R153). -/
  | ssd (p q : Nat)
  /-- OP 0x21: SumSquaredDiffBounded against SSD_LIMIT (R154). -/
  | ssdb (p q : Nat)
  /-- OP 0x22: HalfPelRead from the window of s, shifted by (dx, dy), into the window of d (R155). -/
  | hpel (s d : Nat) (dx dy : ShiftCode)
deriving DecidableEq, Repr

end Sys2Proof
end

