-- ==== Sys2Proof/WellFormed.lean ====
section
/-! DEFINITION. Which command terms a word can stand for: every operand fits the field R82 of `30_encoding.md` reads it
from. A count of 33 to 63 is well formed (the word is legal and fails with BAD_PARAM, R85), and so is the shift code
`invalid`. -/

namespace Sys2Proof

/-- The n field, A[5:0] (R82). -/
def countOk (n : Nat) : Bool := n < 64

/-- A symbol or context field, 4 bits (R82: "4-bit symbols 0..15"). -/
def symbolOk (s : Nat) : Bool := s < 16

/-- A descriptor index, 2 bits (R82: "each 0..3, naming descriptor OV0 to OV3"). -/
def overlayOk (o : Nat) : Bool := o < 4

/-- Every operand of the command fits its field (R82). -/
def Instr.wf : Instr → Bool
  | .nop => true
  | .rdbit => true
  | .rdbits n => countOk n
  | .pkbits n => countOk n
  | .encTz tz tc => symbolOk tz && symbolOk tc
  | .decTz tc => symbolOk tc
  | .encRb rb zl => symbolOk rb && symbolOk zl
  | .decRb zl => symbolOk zl
  | .dec1 => true
  | .ssd p q => overlayOk p && overlayOk q
  | .ssdb p q => overlayOk p && overlayOk q
  | .hpel s d _ _ => overlayOk s && overlayOk d

end Sys2Proof
end

