-- ==== Sys2Proof/Decode.lean ====
section
/-! DEFINITION. The command word (`30_encoding.md` R80), its decoder and its encoder. The decoder is the opcode table
itself: a list of rows with the match and the mask of `spec/opcode_table.json`, "a word w is the command of a row
exactly when (w & mask) == match" (R81). It is total and rejects by name (R83, R84, R86). -/

namespace Sys2Proof

/-- Bits `lo + len - 1` down to `lo` of a command word, as an unsigned number (`00_scope.md` R9, `30_encoding.md` R82). -/
def wordField (w : Word) (lo len : Nat) : Nat := (w.extractLsb' lo len).toNat

/-- The OP byte (R80). -/
def opcodeOf (w : Word) : Nat := wordField w 0 8

/-- `DeltaCode` (R89): the shift a 2-bit code names. -/
def shiftCodeOf (b : Nat) : ShiftCode :=
  match b with
  | 0 => .zero
  | 1 => .plusOne
  | 2 => .invalid
  | _ => .minusOne

/-- The 2-bit code of a shift (R87: "0 for 0, 1 for +1, 3 for -1"; 0b10 is the invalid code of R89). -/
def ShiftCode.bits : ShiftCode → Nat
  | .zero => 0
  | .plusOne => 1
  | .invalid => 2
  | .minusOne => 3

/-- Why a word is no command: both make the command fail with ILLEGAL_CMD (R83, R84). -/
inductive Reject where
  /-- The OP byte is not in the opcode map (R84). -/
  | unassignedOpcode
  /-- The OP byte is assigned and a reserved operand bit is 1 (R83). -/
  | reservedBitSet
deriving DecidableEq, Repr

/-- One row of the opcode table: the word is this row's command exactly when `w &&& mask = pattern`, and then `build`
reads its operands (R81, R82). -/
structure OpRow where
  pattern : Word
  mask : Word
  build : Word → Instr

/-- The opcode map (R81), row by row as `spec/opcode_table.json` gives it. -/
def opTable : List OpRow :=
  [ { pattern := 0x00000000, mask := 0xFFFFFFFF, build := fun _ => .nop },
    { pattern := 0x00000001, mask := 0xFFFFFFFF, build := fun _ => .rdbit },
    { pattern := 0x00000002, mask := 0xFFFFC0FF, build := fun w => .rdbits (wordField w 8 6) },
    { pattern := 0x00000003, mask := 0xFFFFC0FF, build := fun w => .pkbits (wordField w 8 6) },
    { pattern := 0x00000010, mask := 0xFFF0F0FF, build := fun w => .encTz (wordField w 8 4) (wordField w 16 4) },
    { pattern := 0x00000011, mask := 0xFFF0FFFF, build := fun w => .decTz (wordField w 16 4) },
    { pattern := 0x00000012, mask := 0xFFF0F0FF, build := fun w => .encRb (wordField w 8 4) (wordField w 16 4) },
    { pattern := 0x00000013, mask := 0xFFF0FFFF, build := fun w => .decRb (wordField w 16 4) },
    { pattern := 0x00000014, mask := 0xFFFFFFFF, build := fun _ => .dec1 },
    { pattern := 0x00000020, mask := 0xFFFCFCFF, build := fun w => .ssd (wordField w 8 2) (wordField w 16 2) },
    { pattern := 0x00000021, mask := 0xFFFCFCFF, build := fun w => .ssdb (wordField w 8 2) (wordField w 16 2) },
    { pattern := 0x00000022, mask := 0xF0FCFCFF,
      build := fun w => .hpel (wordField w 8 2) (wordField w 16 2)
        (shiftCodeOf (wordField w 24 2)) (shiftCodeOf (wordField w 26 2)) } ]

/-- The row tests a word: R81's "(w & mask) == match". -/
def OpRow.matchesWord (r : OpRow) (w : Word) : Bool := w &&& r.mask == r.pattern

/-- The OP byte is in the opcode map (R84 lists the others). -/
def opcodeAssigned (op : Nat) : Bool := opTable.any fun r => opcodeOf r.pattern == op

/-- The decoder, total on every 32-bit word (R86). -/
def decode (w : Word) : Except Reject Instr :=
  match opTable.find? (fun r => r.matchesWord w) with
  | some r => .ok (r.build w)
  | none => .error (if opcodeAssigned (opcodeOf w) then .reservedBitSet else .unassignedOpcode)

/-- The word of R80's four byte fields, `(C << 24) | (B << 16) | (A << 8) | OP`. -/
def commandWord (op a b c : Nat) : Word :=
  (BitVec.ofNat 32 c <<< 24) ||| (BitVec.ofNat 32 b <<< 16) ||| (BitVec.ofNat 32 a <<< 8) ||| BitVec.ofNat 32 op

/-- The assembler: the word R87 gives for each command. -/
def encode : Instr → Word
  | .nop => commandWord 0x00 0 0 0
  | .rdbit => commandWord 0x01 0 0 0
  | .rdbits n => commandWord 0x02 n 0 0
  | .pkbits n => commandWord 0x03 n 0 0
  | .encTz tz tc => commandWord 0x10 tz tc 0
  | .decTz tc => commandWord 0x11 0 tc 0
  | .encRb rb zl => commandWord 0x12 rb zl 0
  | .decRb zl => commandWord 0x13 0 zl 0
  | .dec1 => commandWord 0x14 0 0 0
  | .ssd p q => commandWord 0x20 p q 0
  | .ssdb p q => commandWord 0x21 p q 0
  | .hpel s d dx dy => commandWord 0x22 s d (dy.bits * 4 + dx.bits)

/-- The instruction the decoder reads from the low `nbits` bits of `w`, every higher bit of the word being 0. A
command is one 32-bit value written to CMD, so no byte order enters (`20_memory.md` R70). -/
def decodeTableWord (nbits w : Nat) : Option Instr :=
  match decode (BitVec.ofNat 32 (w % 2 ^ nbits)) with
  | .ok i => some i
  | .error _ => none

end Sys2Proof
end

