-- ==== Sys2Proof/Config.lean ====
section
/-! DEFINITION. What an implementation fixes and what the spec leaves open: the OPEN parameters of `00_scope.md` R8 as
one plain record, which the state carries as a constant so that every statement ranges over all of its values, and the
free values, opaque constants about which nothing can be proved. The two VLC tables are in `Machine/Tables.lean`. -/

namespace Sys2Proof

/-- The rounding of the half-pel average (`42_pixel.md` R156), an OPEN parameter. -/
inductive HpelRound where
  | up
  | down
deriving DecidableEq, Repr

/-- The OPEN parameters of R8, the tables apart. -/
structure Params where
  /-- BS_SIZE: bytes in BSMEM. -/
  bsSize : Nat
  /-- PIX_SIZE: samples in PIXMEM. -/
  pixSize : Nat
  /-- DEC1_SENTINEL: the value DEC1 returns. -/
  dec1Sentinel : Word
  /-- HPEL_ROUND. -/
  hpelRound : HpelRound
  /-- CSR_BASE, BSMEM_BASE, PIXMEM_BASE: where the host bus places the three windows (`20_memory.md` R73). -/
  csrBase : Nat
  bsmemBase : Nat
  pixmemBase : Nat
deriving DecidableEq, Repr

/-- The ranges R8 gives: 1 <= BS_SIZE <= 2^28 and 1 <= PIX_SIZE <= 2^32. -/
def Params.inRange (p : Params) : Bool :=
  (1 ≤ p.bsSize && p.bsSize ≤ 2 ^ 28) && (1 ≤ p.pixSize && p.pixSize ≤ 2 ^ 32)

/-- The content of BSMEM byte `a` after reset number `epoch` until something writes it: "unspecified", "no fixed value"
(`70_reset_and_hazards.md` R213). A free value (log 4). -/
opaque Config.freeBsByte (epoch a : Nat) : Byte

/-- The content of PIXMEM sample `a` after reset number `epoch` until something writes it (R213). A free value (log 4). -/
opaque Config.freePixSample (epoch a : Nat) : Byte

/-- DEC1_SENTINEL of the launch `State.reset` stands for: the document "does not give its value" (`41_vlc.md` R130).
A free value (log 3). -/
opaque Config.dec1Sentinel : Word

/-- The parameters of the launch that `State.reset` stands for. DESIGN CHOICE (log 1): the sizes and the rounding are
those of the fixtures of `95_test_vectors.md` (BS_SIZE = 64 in V-ST-11, PIX_SIZE = 32 in P32, HPEL_ROUND = UP in P3), the bases
any three disjoint windows. No statement rests on them. -/
def Config.params : Params :=
  { bsSize := 64, pixSize := 32, dec1Sentinel := Config.dec1Sentinel, hpelRound := .up,
    csrBase := 0, bsmemBase := 0x10000000, pixmemBase := 0x100000000 }

end Sys2Proof
end

