-- ==== Sys2Proof/Machine/Memory.lean ====
section
/-! DEFINITION. A memory of single bytes (BSMEM, `20_memory.md` R60; PIXMEM, R65): the list of the bytes written since
reset, addresses strictly rising. A byte nothing has written has no listed value; what reading it gives is a free draw
(`70_reset_and_hazards.md` R213), taken where the state is read (`State.bsByte`, `State.pixSample` in `Operands.lean`). So no listed
entry equals what an unlisted address reads as: an unlisted address has no listed value at all (log 5). -/

namespace Sys2Proof.Machine

/-- The bytes written since reset, by rising address. -/
abbrev Memory := List Host.Cell

/-- The byte written at `a`, if one was written since reset. -/
def Memory.byteAt : Memory → Nat → Option Byte
  | [], _ => none
  | c :: m, a => if c.1 = a then some c.2 else Memory.byteAt m a

/-- Write one byte: the whole of it, and no other byte (`20_memory.md` R72). -/
def Memory.write : Memory → Nat → Byte → Memory
  | [], a, v => [(a, v)]
  | c :: m, a, v =>
    if a < c.1 then (a, v) :: c :: m
    else if c.1 = a then (a, v) :: m
    else c :: Memory.write m a v

/-- Write a list of bytes, one after another. -/
def Memory.writeAll : Memory → List (Nat × Byte) → Memory
  | m, [] => m
  | m, w :: ws => Memory.writeAll (Memory.write m w.1 w.2) ws

/-- The canonical form: addresses strictly rising. -/
def Memory.wf : Memory → Bool
  | [] => true
  | [_] => true
  | c :: d :: m => decide (c.1 < d.1) && Memory.wf (d :: m)

/-- Every listed address lies below `size`. -/
def Memory.below (m : Memory) (size : Nat) : Bool := m.all fun c => decide (c.1 < size)

end Sys2Proof.Machine
end

