-- ==== Sys2Proof/Machine/Tables.lean ====
section
/-! DEFINITION. The two constant VLC tables (`41_vlc.md` R120), their well-formedness (R121), and the spec's candidate
contents TZ_STD and RB_STD (R123). The candidate is general knowledge of the H.264 CAVLC tables, not the source's
(`93_implementation_defined.md` G1): PRESUMED, log 2. -/

namespace Sys2Proof.Machine

/-- A table entry (R120): the code's length and its code word. -/
structure VlcEntry where
  numBits : Nat
  codeWord : BitVec 16
deriving DecidableEq, Repr

/-- "Entries with numBits = 0 denote an unreachable/invalid symbol pair" (R120). -/
def VlcEntry.invalid : VlcEntry := { numBits := 0, codeWord := 0 }

/-- The entries of one table that share the context symbol (R12: a context column), by their first symbol. -/
abbrev VlcColumn := Vector VlcEntry 16

/-- A 16-by-16 table (R120), held by context column. -/
structure VlcTable where
  columns : Vector VlcColumn 16
deriving DecidableEq, Repr

/-- `T[s1][ctx]` (R120, R124): a pure table read. No field of a command reaches a symbol above 15; there the answer is
the invalid entry (log 16). -/
def VlcTable.entry (t : VlcTable) (s1 ctx : Nat) : VlcEntry :=
  match t.columns[ctx]? with
  | none => .invalid
  | some col => (col[s1]?).getD .invalid

/-- The entry holds a code (R120: numBits = 0 denotes an unreachable pair). -/
def VlcEntry.reachable (e : VlcEntry) : Bool := e.numBits != 0

/-- Conditions 1 and 2 of R121 for one entry. -/
def VlcEntry.ok (e : VlcEntry) : Bool :=
  decide (e.numBits ≤ 16) && decide (e.codeWord.toNat < 2 ^ e.numBits) && (e.numBits != 0 || e.codeWord == 0)

/-- Code `a` is no prefix of code `b`: R121 condition 3, `b.codeWord mod 2^a.numBits != a.codeWord` wherever
`0 < a.numBits <= b.numBits`. -/
def VlcEntry.notPrefixOf (a b : VlcEntry) : Bool :=
  a.numBits == 0 || decide (b.numBits < a.numBits) || b.codeWord.toNat % 2 ^ a.numBits != a.codeWord.toNat

/-- Every entry of `es` and `a` are free of each other's prefixes, both ways. -/
def VlcEntry.freeOf (a : VlcEntry) (es : List VlcEntry) : Bool :=
  es.all fun b => a.notPrefixOf b && b.notPrefixOf a

/-- Condition 3 of R121 for a column: no code of it is a prefix of another, and no two are equal. -/
def prefixFree : List VlcEntry → Bool
  | [] => true
  | a :: es => a.freeOf es && prefixFree es

/-- Conditions 1 to 3 of R121 for a whole table. -/
def VlcTable.wf (t : VlcTable) : Bool :=
  t.columns.toList.all fun col => col.toList.all VlcEntry.ok && prefixFree (col.toList.filter VlcEntry.reachable)

/-- R121 for TZ_TABLE: conditions 1 to 3 and condition 4, the one entry the document gives. -/
def VlcTable.wfTz (t : VlcTable) : Bool :=
  t.wf && t.entry 0 1 == { numBits := 1, codeWord := 1 }

/-- A column from the (numBits, codeWord) pairs of its symbols 0, 1, 2, ...; "every entry not listed has numBits = 0,
codeWord = 0" (R123). -/
def columnOf (l : List (Nat × Nat)) : VlcColumn :=
  let es : List VlcEntry := l.map fun p => { numBits := p.1, codeWord := BitVec.ofNat 16 p.2 }
  ⟨((es ++ List.replicate 16 VlcEntry.invalid).take 16).toArray, by simp⟩

/-- TZ_STD, columns totalCoeffs = 0 to 7 (R123; column 0 is empty). -/
def tzStdLow : List VlcColumn :=
  [ columnOf [],
    columnOf [(1, 0x1), (3, 0x6), (3, 0x2), (4, 0xC), (4, 0x4), (5, 0x18), (5, 0x8), (6, 0x30), (6, 0x10), (7, 0x60),
      (7, 0x20), (8, 0xC0), (8, 0x40), (9, 0x180), (9, 0x80), (9, 0x100)],
    columnOf [(3, 0x7), (3, 0x3), (3, 0x5), (3, 0x1), (3, 0x6), (4, 0xA), (4, 0x2), (4, 0xC), (4, 0x4), (5, 0x18),
      (5, 0x8), (6, 0x30), (6, 0x10), (6, 0x20), (6, 0x0)],
    columnOf [(4, 0xA), (3, 0x7), (3, 0x3), (3, 0x5), (4, 0x2), (4, 0xC), (3, 0x1), (3, 0x6), (4, 0x4), (5, 0x18),
      (5, 0x8), (6, 0x20), (5, 0x10), (6, 0x0)],
    columnOf [(5, 0x18), (3, 0x7), (4, 0xA), (4, 0x2), (3, 0x3), (3, 0x5), (3, 0x1), (4, 0xC), (3, 0x6), (4, 0x4),
      (5, 0x8), (5, 0x10), (5, 0x0)],
    columnOf [(4, 0xA), (4, 0x2), (4, 0xC), (3, 0x7), (3, 0x3), (3, 0x5), (3, 0x1), (3, 0x6), (4, 0x4), (5, 0x10),
      (4, 0x8), (5, 0x0)],
    columnOf [(6, 0x20), (5, 0x10), (3, 0x7), (3, 0x3), (3, 0x5), (3, 0x1), (3, 0x6), (3, 0x2), (4, 0x8), (3, 0x4),
      (6, 0x0)],
    columnOf [(6, 0x20), (5, 0x10), (3, 0x5), (3, 0x1), (3, 0x6), (2, 0x3), (3, 0x2), (4, 0x8), (3, 0x4), (6, 0x0)] ]

/-- TZ_STD, columns totalCoeffs = 8 to 15 (R123). -/
def tzStdHigh : List VlcColumn :=
  [ columnOf [(6, 0x20), (4, 0x8), (5, 0x10), (3, 0x6), (2, 0x3), (2, 0x1), (3, 0x2), (3, 0x4), (6, 0x0)],
    columnOf [(6, 0x20), (6, 0x0), (4, 0x8), (2, 0x3), (2, 0x1), (3, 0x4), (2, 0x2), (5, 0x10)],
    columnOf [(5, 0x10), (5, 0x0), (3, 0x4), (2, 0x3), (2, 0x1), (2, 0x2), (4, 0x8)],
    columnOf [(4, 0x0), (4, 0x8), (3, 0x4), (3, 0x2), (1, 0x1), (3, 0x6)],
    columnOf [(4, 0x0), (4, 0x8), (2, 0x2), (1, 0x1), (3, 0x4)],
    columnOf [(3, 0x0), (3, 0x4), (1, 0x1), (2, 0x2)],
    columnOf [(2, 0x0), (2, 0x2), (1, 0x1)],
    columnOf [(1, 0x0), (1, 0x1)] ]

/-- The column "zerosLeft = 7 to 15" of RB_STD (R123). -/
def rbStdAboveSix : VlcColumn :=
  columnOf [(3, 0x7), (3, 0x3), (3, 0x5), (3, 0x1), (3, 0x6), (3, 0x2), (3, 0x4), (4, 0x8), (5, 0x10), (6, 0x20),
    (7, 0x40), (8, 0x80), (9, 0x100), (10, 0x200), (11, 0x400)]

/-- RB_STD, columns zerosLeft = 0 to 6 (R123; column 0 is empty). -/
def rbStdLow : List VlcColumn :=
  [ columnOf [],
    columnOf [(1, 0x1), (1, 0x0)],
    columnOf [(1, 0x1), (2, 0x2), (2, 0x0)],
    columnOf [(2, 0x3), (2, 0x1), (2, 0x2), (2, 0x0)],
    columnOf [(2, 0x3), (2, 0x1), (2, 0x2), (3, 0x4), (3, 0x0)],
    columnOf [(2, 0x3), (2, 0x1), (3, 0x6), (3, 0x2), (3, 0x4), (3, 0x0)],
    columnOf [(2, 0x3), (3, 0x0), (3, 0x4), (3, 0x6), (3, 0x2), (3, 0x5), (3, 0x1)] ]

/-- TZ_STD (R123). PRESUMED, log 2. -/
def tzStd : VlcTable := { columns := ⟨(tzStdLow ++ tzStdHigh).toArray, by rfl⟩ }

/-- RB_STD (R123). PRESUMED, log 2. -/
def rbStd : VlcTable := { columns := ⟨(rbStdLow ++ List.replicate 9 rbStdAboveSix).toArray, by rfl⟩ }

end Sys2Proof.Machine
end

