-- ==== Sys2Proof/Machine/State.lean ====
section
/-! DEFINITION. The state of VPP-BVP (`10_state.md` R20): the CSR file, PENDING, the two memories, the two constant
tables, and, beside it, the constant parameters and the model's own fields (the reset epoch, the inputs still to come and the
value the host's last read returned). Plain data throughout. -/

namespace Sys2Proof.Machine

/-- STATUS (R25). Bits 31:8 are reserved, read 0 and take no write, so they have no storage. -/
structure Status where
  /-- bit 0: 1 from the acceptance of a command until its completion. -/
  busy : Bool
  /-- bit 1: 1 from the completion of a command until the next is accepted. -/
  done : Bool
  /-- bit 2, sticky: a command completed with ERRCODE != 0. -/
  err : Bool
  /-- bit 3, sticky: a host write was dropped because BUSY = 1. -/
  busyErr : Bool
  /-- bits 7:4: the code of the last completed command. -/
  errCode : BitVec 4
deriving DecidableEq, Repr

/-- One overlay descriptor, its four CSRs (R22, R33). -/
structure Overlay where
  base : Word
  /-- PW = 15:0, PH = 31:16. -/
  pdim : Word
  /-- X = 15:0, Y = 31:16. -/
  org : Word
  /-- W = 15:0, H = 31:16. -/
  size : Word
deriving DecidableEq, Repr

/-- What happens next at the block's interface, besides its own completion step: the host's accesses (R23, `20_memory.md`
R73), the host's polling loop, the moment the block completes, and the platform's reset. The spec fixes no interleaving
(`70_reset_and_hazards.md` R222), so the state holds one as data (log 6). -/
inductive Input where
  /-- The host reads `bytes` bytes at the bus address `addr`. -/
  | read (bytes addr : Nat)
  /-- The host writes the low `bytes` bytes of `value` at the bus address `addr`. -/
  | write (bytes addr : Nat) (value : Word)
  /-- `WAIT`: the host reads STATUS until BUSY = 0 (`30_encoding.md` R87). -/
  | wait
  /-- The block takes its completion step before the next input (R39). -/
  | complete
  /-- The platform asserts reset; power-up is the same (`70_reset_and_hazards.md` R210). -/
  | reset
deriving DecidableEq, Repr

structure State where
  /-- The OPEN parameters (`00_scope.md` R8), fixed for a given model (R20). -/
  params : Params
  /-- TZ_TABLE and RB_TABLE: constant state (R20, R41). -/
  tzTable : VlcTable
  rbTable : VlcTable
  /-- CMD (R24). -/
  cmd : Word
  /-- STATUS (R25). -/
  status : Status
  /-- RESULT0 to RESULT2 (R27). -/
  result0 : Word
  result1 : Word
  result2 : Word
  /-- BS_LEN (R28). -/
  bsLen : Word
  /-- BR_BYTEPOS (R29) and BR_BITPOS[2:0] (R30): the bit cursor. -/
  brBytePos : Word
  brBitPos : BitVec 3
  /-- PEEK_OFF (R31). -/
  peekOff : Word
  /-- SSD_LIMIT (R32). -/
  ssdLimit : Word
  /-- OV0 to OV3 (R33). -/
  overlays : Vector Overlay 4
  /-- PENDING (R35): the command word in flight, or empty. -/
  pending : Option Word
  /-- BSMEM (`20_memory.md` R60). -/
  bsmem : Memory
  /-- PIXMEM (`20_memory.md` R65). -/
  pixmem : Memory
  /-- The model's own: how many resets there have been, the counter the free draws of R213 are applied to (log 4). -/
  epoch : Nat
  /-- The model's own: what host, block and platform do next (log 6). -/
  inputs : List Input
  /-- The model's own: the value the host's last read returned, zero-extended (log 14). -/
  lastRead : Option Word
deriving DecidableEq, Repr

/-- Why the machine stops: the three host actions the spec makes faults of the model (`60_exceptions.md` R196). All are
safe: "the model has fewer runs than a hardware that tolerates them". -/
inductive Fault where
  /-- Raised by a host write to BSMEM or PIXMEM while BUSY = 1 (`20_memory.md` R76). Safe. -/
  | hostRace
  /-- Raised by a CSR access that is not a 32-bit word at a multiple of 4 (R23; that it is a fault, log 20). Safe. -/
  | badCsrAccess
  /-- Raised by every step of a launch whose TZ_TABLE or RB_TABLE fails `41_vlc.md` R121 (that it is a fault, log 12).
  Safe. -/
  | illFormedTable
deriving DecidableEq, Repr

/-- Why there is no step. -/
inductive Refusal where
  /-- Raised by an arm of `exec` that has no meaning yet. Safe. No arm raises it. -/
  | notModelled (mnemonic : String)
  /-- Raised when nothing is to happen: no input is left, or the next is the block's step, and the block is idle ("it has
  a step only while STATUS.BUSY = 1", `00_scope.md` R13; log 8). Safe. -/
  | idle
  /-- Raised by a host access at a bus address in none of the three windows or in two of them: the platform's business
  (`20_memory.md` R73; log 10). Safe. -/
  | notOneWindow
  /-- Raised by a host access to BSMEM or PIXMEM that is not one byte (`20_memory.md` R72; log 11). Safe. -/
  | memoryAccessNotOneByte
  /-- Raised by every step of a launch whose BS_SIZE or PIX_SIZE is out of the range of `00_scope.md` R8 (log 12). Safe. -/
  | parameterOutOfRange
deriving DecidableEq, Repr

/-- STATUS after reset: all bits 0 (`70_reset_and_hazards.md` R211). -/
def Status.zero : Status := { busy := false, done := false, err := false, busyErr := false, errCode := 0 }

/-- A descriptor after reset: all zero (R211). -/
def Overlay.zero : Overlay := { base := 0, pdim := 0, org := 0, size := 0 }

/-- The state after reset number `epoch` of a block with these parameters and tables (R211, R213): every CSR zero, PENDING
empty, nothing known of the memories. -/
def State.afterReset (params : Params) (tz rb : VlcTable) (epoch : Nat) : State :=
  { params := params, tzTable := tz, rbTable := rb, cmd := 0, status := .zero, result0 := 0, result1 := 0, result2 := 0,
    bsLen := 0, brBytePos := 0, brBitPos := 0, peekOff := 0, ssdLimit := 0,
    overlays := #v[Overlay.zero, Overlay.zero, Overlay.zero, Overlay.zero], pending := none, bsmem := [], pixmem := [],
    epoch := epoch, inputs := [], lastRead := none }

/-- The machine right after its first reset (R211), as the launch with `Config.params` (log 1) and the candidate tables
(log 2), with no input yet. -/
def State.reset : State := State.afterReset Config.params tzStd rbStd 0

end Sys2Proof.Machine
end

