-- ==== Sys2Proof/Machine/Flags.lean ====
section
/-! DEFINITION. The error codes (`60_exceptions.md` R180) and every computation of a STATUS bit: "written only by issue,
completion, the host's W1C write, a dropped write and reset" (`10_state.md` R40). -/

namespace Sys2Proof.Machine

/-- The outcomes of a command (R180). Codes 9 to 15 are reserved and never produced. -/
inductive ErrCode where
  | ok
  | bsOob
  | vlcNoMatch
  | vlcInvalidPair
  | unsupported
  | pixOob
  | dimMismatch
  | badParam
  | illegalCmd
deriving DecidableEq, Repr

/-- The number of an outcome in STATUS.ERRCODE (R180). -/
def ErrCode.code : ErrCode → BitVec 4
  | .ok => 0
  | .bsOob => 1
  | .vlcNoMatch => 2
  | .vlcInvalidPair => 3
  | .unsupported => 4
  | .pixOob => 5
  | .dimMismatch => 6
  | .badParam => 7
  | .illegalCmd => 8

/-- STATUS as the host reads it: bit 0 BUSY, 1 DONE, 2 ERR, 3 BUSYERR, 7:4 ERRCODE, the rest 0 (R22, R25). -/
def Status.word (st : Status) : Word :=
  BitVec.ofNat 32 (st.busy.toNat + 2 * st.done.toNat + 4 * st.err.toNat + 8 * st.busyErr.toNat + 16 * st.errCode.toNat)

/-- Issue (R36): BUSY <- 1, DONE <- 0, the others kept. -/
def Status.issue (st : Status) : Status := { st with busy := true, done := false }

/-- Completion (R39): ERRCODE <- the code, ERR <- 1 if the code is not 0, BUSY <- 0, DONE <- 1. -/
def Status.complete (st : Status) (c : ErrCode) : Status :=
  { st with busy := false, done := true, err := st.err || c != .ok, errCode := c.code }

/-- The host's write of `v` to STATUS (R26): bit 2 clears ERR, bit 3 clears BUSYERR, the other bits do nothing. -/
def Status.clear (st : Status) (v : Word) : Status :=
  { st with err := st.err && !v.getLsbD 2, busyErr := st.busyErr && !v.getLsbD 3 }

/-- A host write dropped because BUSY = 1 (R37). -/
def Status.dropped (st : Status) : Status := { st with busyErr := true }

end Sys2Proof.Machine
end

