-- ==== Sys2Proof/Machine/Operands.lean ====
section
/-! DEFINITION. Every operand form of the commands: the cursor (`00_scope.md` R11), stream bits (`20_memory.md` R62, R63),
descriptor fields and windows (`10_state.md` R33, `20_memory.md` R66 to R68), the window checks (`42_pixel.md` R151), half-pel
shifts (`30_encoding.md` R89) and the table matching of the VLC decoder (`41_vlc.md` R125). -/

namespace Sys2Proof.Machine

/-! ## The stream -/

/-- The cursor position, an absolute bit offset (`00_scope.md` R11). -/
def State.cursor (s : State) : Nat := 8 * s.brBytePos.toNat + s.brBitPos.toNat

/-- The number of stream bits that may be read, `8 * BS_LEN` (`20_memory.md` R61). -/
def State.streamBits (s : State) : Nat := 8 * s.bsLen.toNat

/-- `MemRead(BSMEM, a, 1)`; a byte nothing has written since reset is a free draw (`70_reset_and_hazards.md` R213). -/
def State.bsByte (s : State) (a : Nat) : Byte := (s.bsmem.byteAt a).getD (Config.freeBsByte s.epoch a)

/-- `BsBit(p) = (MemRead(BSMEM, p >> 3, 1) >> (p & 7)) & 1` (`20_memory.md` R62), with `p >> 3` and `p & 7` written as the
document's `offset/8` and `offset%8`. -/
def State.bsBit (s : State) (p : Nat) : Nat := (s.bsByte (p / 8)).toNat >>> (p % 8) % 2

/-- `BsBits(p, n)`: the sum of `BsBit(p + k) << k` for k below n (`20_memory.md` R63). -/
def State.bsBits (s : State) (p : Nat) : Nat → Nat
  | 0 => 0
  | n + 1 => s.bsBits p n + s.bsBit (p + n) <<< n

/-! ## Windows -/

def Overlay.pw (o : Overlay) : Nat := (o.pdim.extractLsb' 0 16).toNat
def Overlay.ph (o : Overlay) : Nat := (o.pdim.extractLsb' 16 16).toNat
def Overlay.x (o : Overlay) : Nat := (o.org.extractLsb' 0 16).toNat
def Overlay.y (o : Overlay) : Nat := (o.org.extractLsb' 16 16).toNat
def Overlay.w (o : Overlay) : Nat := (o.size.extractLsb' 0 16).toNat
def Overlay.h (o : Overlay) : Nat := (o.size.extractLsb' 16 16).toNat

/-- Descriptor OVn (`10_state.md` R33). A command names one of four; an index above 3, which no word encodes, reads as the
all-zero descriptor (log 16). -/
def State.overlay (s : State) (n : Nat) : Overlay := (s.overlays[n]?).getD .zero

/-- `MemRead(PIXMEM, a, 1)`; a sample nothing has written since reset is a free draw (`70_reset_and_hazards.md` R213). -/
def State.pixSample (s : State) (a : Nat) : Byte := (s.pixmem.byteAt a).getD (Config.freePixSample s.epoch a)

/-- `PixAddr(ov, c, r) = BASE + r * PW + c`, an unbounded integer (`20_memory.md` R67). -/
def Overlay.pixAddr (o : Overlay) (c r : Int) : Int := o.base.toNat + r * o.pw + c

/-- `Pix(ov, c, r)` (`20_memory.md` R67), used only where `winOk` has shown the address to be an index of PIXMEM. -/
def State.pix (s : State) (o : Overlay) (c r : Int) : Nat := (s.pixSample (o.pixAddr c r).toNat).toNat

/-- `SizeOK(o)`: 1 <= W <= 256 and 1 <= H <= 256 (`42_pixel.md` R151). -/
def Overlay.sizeOk (o : Overlay) : Bool := (1 ≤ o.w && o.w ≤ 256) && (1 ≤ o.h && o.h ≤ 256)

/-- `WinOK(ov, x, y)` (`20_memory.md` R68): the W-by-H window at (x, y) lies in the parent, and its last sample in PIXMEM. -/
def Overlay.winOk (o : Overlay) (pixSize : Nat) (x y : Int) : Bool :=
  decide (0 ≤ x) && decide (0 ≤ y) && decide (x + o.w ≤ o.pw) && decide (y + o.h ≤ o.ph) &&
    decide (o.pixAddr (x + o.w - 1) (y + o.h - 1) < pixSize)

/-- The (column, row) pairs of a w-by-h window in raster order: rows from the top, columns from the left (`42_pixel.md`
R150). -/
def raster (w h : Nat) : List (Nat × Nat) :=
  (List.range h).flatMap fun i => (List.range w).map fun j => (j, i)

/-- The squared difference of two samples, `d * d` for the signed d (`42_pixel.md` R153). -/
def sqDiff (a b : Nat) : Nat := (((a : Int) - b) * ((a : Int) - b)).toNat

/-- The squared differences of the windows of `p` and `q` at their origins, in raster order (`42_pixel.md` R153). -/
def State.windowDiffs (s : State) (p q : Overlay) : List Nat :=
  (raster p.w p.h).map fun ji => sqDiff (s.pix p (p.x + ji.1) (p.y + ji.2)) (s.pix q (q.x + ji.1) (q.y + ji.2))

/-- SSDB's loop over the squared differences still to come, with the sum `acc` and the count `k` so far: the limit is
checked after every sample (`42_pixel.md` R154). -/
def boundedSum (lim : Nat) : List Nat → Nat → Nat → Nat × Nat
  | [], acc, k => (acc, k)
  | d :: ds, acc, k => if lim ≤ acc + d then (acc + d, k + 1) else boundedSum lim ds (acc + d) (k + 1)

/-- `DeltaCode` (`30_encoding.md` R89); none for the invalid code. -/
def shiftValue (c : ShiftCode) : Option Int :=
  match c with
  | .zero => some 0
  | .plusOne => some 1
  | .invalid => none
  | .minusOne => some (-1)

/-- `HalfAvg(a, b)` (`42_pixel.md` R156). -/
def halfAvg (r : HpelRound) (a b : Nat) : Nat :=
  match r with
  | .up => (a + b + 1) >>> 1
  | .down => (a + b) >>> 1

/-- The samples HPEL writes, each with its PIXMEM index, all computed from the samples as they stand (`42_pixel.md` R155:
"all reads first", "then all writes"). -/
def State.hpelSamples (s : State) (src dst : Overlay) (dx dy : Int) : List (Nat × Byte) :=
  (raster src.w src.h).map fun ji =>
    ((dst.pixAddr (dst.x + ji.1) (dst.y + ji.2)).toNat,
      BitVec.ofNat 8 (halfAvg s.params.hpelRound (s.pix src (src.x + ji.1) (src.y + ji.2))
        (s.pix src (src.x + dx + ji.1) (src.y + dy + ji.2))))

/-! ## Table matching -/

/-- The symbols of column `ctx` whose codes have length `len` (the set C of `41_vlc.md` R125). -/
def VlcTable.candidates (t : VlcTable) (ctx len : Nat) : List Nat :=
  (List.range 16).filter fun sym => (t.entry sym ctx).numBits == len

/-- `VlcDecode` (`41_vlc.md` R125) over the code lengths still to try. -/
def State.vlcMatch (s : State) (t : VlcTable) (ctx : Nat) : List Nat → Except ErrCode (Nat × Nat)
  | [] => .error .vlcNoMatch
  | len :: lens =>
    if (t.candidates ctx len).isEmpty then s.vlcMatch t ctx lens
    else if s.streamBits < s.cursor + len then .error .bsOob
    else
      match (t.candidates ctx len).find? (fun sym => (t.entry sym ctx).codeWord.toNat == s.bsBits s.cursor len) with
      | some sym => .ok (sym, len)
      | none => s.vlcMatch t ctx lens

/-- The code lengths in the order they are tried: 1 to MAX_CODE_LEN = 16 (`41_vlc.md` R125, `00_scope.md` R8). -/
def codeLengths : List Nat := [1, 2, 3, 4, 5, 6, 7, 8, 9, 10, 11, 12, 13, 14, 15, 16]

/-- `VlcDecode(T, ctx)` from the cursor: the symbol and the length of its code, or the error (`41_vlc.md` R125). -/
def State.vlcDecode (s : State) (t : VlcTable) (ctx : Nat) : Except ErrCode (Nat × Nat) := s.vlcMatch t ctx codeLengths

end Sys2Proof.Machine
end

