-- ==== Sys2Proof/Machine/Ops.lean ====
section
/-! DEFINITION. The operations every command shares: moving the cursor (`00_scope.md` R11), and the completion step
(`10_state.md` R39), which is also how a command fails. VPP-BVP has no trap entry and no return from one (`60_exceptions.md` R184,
R185): an error is a completion with a code, and `State.complete` is its one entry. -/

namespace Sys2Proof.Machine

/-- What a command writes when it completes, besides STATUS and PENDING (`60_exceptions.md` R186): the RESULT registers, the
cursor and PIXMEM samples, each only where the command's rule says so, and its code. -/
structure Completion where
  code : ErrCode
  results : Option (Word × Word × Word) := none
  cursor : Option Nat := none
  samples : List (Nat × Byte) := []
deriving DecidableEq, Repr

/-- `raise Err(code)` (`00_scope.md` R10, `60_exceptions.md` R183): the code and nothing else. -/
def Completion.error (c : ErrCode) : Completion := { code := c }

/-- The three RESULT registers from three numbers, each zero-extended (`10_state.md` R27). -/
def resultWords (a b c : Nat) : Option (Word × Word × Word) :=
  some (BitVec.ofNat 32 a, BitVec.ofNat 32 b, BitVec.ofNat 32 c)

/-- The RESULT registers written at completion, kept where the command writes none. -/
def State.writeResults (s : State) (r : Option (Word × Word × Word)) : State :=
  match r with
  | none => s
  | some (a, b, c) => { s with result0 := a, result1 := b, result2 := c }

/-- `SetCursor(q)`: `BR_BYTEPOS <- q >> 3; BR_BITPOS <- q & 7` (`40_bitreader.md` R100, `00_scope.md` R11). -/
def State.setCursor (s : State) (q : Nat) : State :=
  { s with brBytePos := BitVec.ofNat 32 (q / 8), brBitPos := BitVec.ofNat 3 (q % 8) }

/-- The cursor written at completion, kept where the command moves none. -/
def State.writeCursor (s : State) (q : Option Nat) : State :=
  match q with
  | none => s
  | some p => s.setCursor p

/-- The completion step (`10_state.md` R39): everything the command writes, then ERRCODE, ERR, BUSY <- 0, DONE <- 1 and
PENDING <- empty, all at once. With a code other than 0 it is the effect of an error (`60_exceptions.md` R183). -/
def State.complete (s : State) (c : Completion) : State :=
  let t := (s.writeResults c.results).writeCursor c.cursor
  { t with pixmem := t.pixmem.writeAll c.samples, status := t.status.complete c.code, pending := none }

/-- The state after a command ends in error `c` with none of its writes (`60_exceptions.md` R183, R184). -/
def State.fail (s : State) (c : ErrCode) : State := s.complete (.error c)

end Sys2Proof.Machine
end

