-- ==== Sys2Proof/Machine/BitReader.lean ====
section
/-! DEFINITION. The bit-stream reader commands NOP, RDBIT, RDBITS and PKBITS (`40_bitreader.md` R100 to R104). -/

namespace Sys2Proof.Machine

/-- The reading shared by RDBIT and RDBITS: n bits at the cursor, which moves past them (`40_bitreader.md` R102, R103). -/
def State.readBits (s : State) (n : Nat) : Completion :=
  if s.streamBits < s.cursor + n then .error .bsOob
  else { code := .ok, results := resultWords (s.bsBits s.cursor n) 0 n, cursor := some (s.cursor + n) }

/-- The reading of PKBITS: n bits at PEEK_OFF, with no bit consumed (`40_bitreader.md` R104). -/
def State.peekBits (s : State) (n : Nat) : Completion :=
  if s.streamBits < s.peekOff.toNat + n then .error .bsOob
  else { code := .ok, results := resultWords (s.bsBits s.peekOff.toNat n) 0 0 }

/-- NOP (`40_bitreader.md` R101): `finish()`. -/
def execNop (s : State) : Host.Outcome State Fault Refusal := .next (s.complete { code := .ok })

/-- RDBIT (`40_bitreader.md` R102). -/
def execRdbit (s : State) : Host.Outcome State Fault Refusal := .next (s.complete (s.readBits 1))

/-- RDBITS n (`40_bitreader.md` R103): BAD_PARAM before BS_OOB. -/
def execRdbits (n : Nat) (s : State) : Host.Outcome State Fault Refusal :=
  .next (s.complete (if 32 < n then .error .badParam else s.readBits n))

/-- PKBITS n (`40_bitreader.md` R104): BAD_PARAM before BS_OOB. -/
def execPkbits (n : Nat) (s : State) : Host.Outcome State Fault Refusal :=
  .next (s.complete (if 32 < n then .error .badParam else s.peekBits n))

end Sys2Proof.Machine
end

