-- ==== Sys2Proof/Machine/Pixel.lean ====
section
/-! DEFINITION. The distortion and half-pel commands SSD, SSDB and HPEL (`42_pixel.md` R150 to R157). -/

namespace Sys2Proof.Machine

/-- The checks two equal windows share, in the order of `60_exceptions.md` R182: sizes (`42_pixel.md` R151), then equal
dimensions (R153), then placement (R152). -/
def windowChecks (p q : Overlay) (placed : Bool) : Option ErrCode :=
  if !(p.sizeOk && q.sizeOk) then some .badParam
  else if p.w ≠ q.w ∨ p.h ≠ q.h then some .dimMismatch
  else if !placed then some .pixOob
  else none

/-- The checks of SSD and SSDB: both windows at their own origins (`42_pixel.md` R153, R154). -/
def State.ssdChecks (s : State) (p q : Overlay) : Option ErrCode :=
  windowChecks p q (p.winOk s.params.pixSize p.x p.y && q.winOk s.params.pixSize q.x q.y)

/-- SSD of two windows (`42_pixel.md` R153). -/
def State.ssdCompletion (s : State) (p q : Overlay) : Completion :=
  match s.ssdChecks p q with
  | some c => .error c
  | none => { code := .ok, results := resultWords (s.windowDiffs p q).sum 0 (p.w * p.h) }

/-- SSDB of two windows against SSD_LIMIT (`42_pixel.md` R154). -/
def State.ssdbCompletion (s : State) (p q : Overlay) : Completion :=
  match s.ssdChecks p q with
  | some c => .error c
  | none =>
    let r := boundedSum s.ssdLimit.toNat (s.windowDiffs p q) 0 0
    { code := .ok, results := resultWords r.1 (if s.ssdLimit.toNat ≤ r.1 then 1 else 0) r.2 }

/-- The checks of HPEL once its shift is known: the source window, the shifted source window, the destination (`42_pixel.md`
R155). -/
def State.hpelChecks (s : State) (src dst : Overlay) (dx dy : Int) : Option ErrCode :=
  windowChecks src dst (src.winOk s.params.pixSize src.x src.y && src.winOk s.params.pixSize (src.x + dx) (src.y + dy) &&
    dst.winOk s.params.pixSize dst.x dst.y)

/-- HPEL between two windows (`42_pixel.md` R155): an invalid shift code is BAD_PARAM before any size check (`60_exceptions.md`
R182). -/
def State.hpelCompletion (s : State) (src dst : Overlay) (dx dy : Option Int) : Completion :=
  match dx, dy with
  | some dx, some dy =>
    match s.hpelChecks src dst dx dy with
    | some c => .error c
    | none => { code := .ok, samples := s.hpelSamples src dst dx dy }
  | _, _ => .error .badParam

/-- SSD p, q (`42_pixel.md` R153). -/
def execSsd (p q : Nat) (s : State) : Host.Outcome State Fault Refusal :=
  .next (s.complete (s.ssdCompletion (s.overlay p) (s.overlay q)))

/-- SSDB p, q (`42_pixel.md` R154). -/
def execSsdb (p q : Nat) (s : State) : Host.Outcome State Fault Refusal :=
  .next (s.complete (s.ssdbCompletion (s.overlay p) (s.overlay q)))

/-- HPEL s, d, dx, dy (`42_pixel.md` R155). -/
def execHpel (src dst : Nat) (dx dy : ShiftCode) (s : State) : Host.Outcome State Fault Refusal :=
  .next (s.complete (s.hpelCompletion (s.overlay src) (s.overlay dst) (shiftValue dx) (shiftValue dy)))

end Sys2Proof.Machine
end

