-- ==== Sys2Proof/Machine/VlcCoder.lean ====
section
/-! DEFINITION. The VLC coder commands ENC_TZ, DEC_TZ, ENC_RB, DEC_RB and DEC1 (`41_vlc.md` R124 to R130). -/

namespace Sys2Proof.Machine

/-- `Encode2` (`41_vlc.md` R126, R128): the entry's code word and length; an entry with numBits = 0 is VLC_INVALID_PAIR, and
its results are still written. -/
def encodePair (t : VlcTable) (s1 ctx : Nat) : Completion :=
  { code := if (t.entry s1 ctx).numBits = 0 then .vlcInvalidPair else .ok,
    results := resultWords (t.entry s1 ctx).codeWord.toNat (t.entry s1 ctx).numBits 0 }

/-- `Decode2` (`41_vlc.md` R127, R129): the symbol, the context it was given, the bits consumed, and the cursor past them; on
an error nothing is consumed. -/
def State.decodePair (s : State) (t : VlcTable) (ctx : Nat) : Completion :=
  match s.vlcDecode t ctx with
  | .error c => .error c
  | .ok (sym, len) => { code := .ok, results := resultWords sym ctx len, cursor := some (s.cursor + len) }

/-- ENC_TZ tz, tc (`41_vlc.md` R126). -/
def execEncTz (tz tc : Nat) (s : State) : Host.Outcome State Fault Refusal := .next (s.complete (encodePair s.tzTable tz tc))

/-- DEC_TZ tc (`41_vlc.md` R127). -/
def execDecTz (tc : Nat) (s : State) : Host.Outcome State Fault Refusal := .next (s.complete (s.decodePair s.tzTable tc))

/-- ENC_RB rb, zl (`41_vlc.md` R128). -/
def execEncRb (rb zl : Nat) (s : State) : Host.Outcome State Fault Refusal := .next (s.complete (encodePair s.rbTable rb zl))

/-- DEC_RB zl (`41_vlc.md` R129). -/
def execDecRb (zl : Nat) (s : State) : Host.Outcome State Fault Refusal := .next (s.complete (s.decodePair s.rbTable zl))

/-- DEC1 (`41_vlc.md` R130): the sentinel, nothing consumed, and always UNSUPPORTED, the results written. -/
def execDec1 (s : State) : Host.Outcome State Fault Refusal :=
  .next (s.complete { code := .unsupported, results := some (s.params.dec1Sentinel, 0, 0) })

end Sys2Proof.Machine
end

