-- ==== Sys2Proof/Machine/Dispatch.lean ====
section
/-! DEFINITION. One arm per command: its meaning (`30_encoding.md` R81). -/

namespace Sys2Proof.Machine

def exec (i : Instr) (s : State) : Host.Outcome State Fault Refusal :=
  match i with
  | .nop => Sys2Proof.Machine.execNop s
  | .rdbit => Sys2Proof.Machine.execRdbit s
  | .rdbits n => Sys2Proof.Machine.execRdbits n s
  | .pkbits n => Sys2Proof.Machine.execPkbits n s
  | .encTz tz tc => Sys2Proof.Machine.execEncTz tz tc s
  | .decTz tc => Sys2Proof.Machine.execDecTz tc s
  | .encRb rb zl => Sys2Proof.Machine.execEncRb rb zl s
  | .decRb zl => Sys2Proof.Machine.execDecRb zl s
  | .dec1 => Sys2Proof.Machine.execDec1 s
  | .ssd p q => Sys2Proof.Machine.execSsd p q s
  | .ssdb p q => Sys2Proof.Machine.execSsdb p q s
  | .hpel src dst dx dy => Sys2Proof.Machine.execHpel src dst dx dy s

end Sys2Proof.Machine
end

