-- ==== Sys2Proof/Machine/Block.lean ====
section
/-! DEFINITION. The block's one step (`10_state.md` R39): while BUSY = 1 it executes the command word in PENDING. The block
fetches nothing (`10_state.md` R21): PENDING is where a command word comes from. -/

namespace Sys2Proof.Machine

/-- Execute a command word: the command it decodes to, or ILLEGAL_CMD with no other effect (`30_encoding.md` R83, R84, R86). -/
def runWord (w : Word) (s : State) : Host.Outcome State Fault Refusal :=
  match decode w with
  | .ok i => exec i s
  | .error _ => .next (s.fail .illegalCmd)

/-- The completion step: the block "has a step only while STATUS.BUSY = 1" (`00_scope.md` R13), on the word in PENDING (R35).
BUSY = 1 with PENDING empty is no state of the block (R35); there, too, it has no step. -/
def blockStep (s : State) : Host.Outcome State Fault Refusal :=
  match s.status.busy, s.pending with
  | true, some w => runWord w s
  | _, _ => .refused .idle

end Sys2Proof.Machine
end

