-- ==== Sys2Proof/Machine/HostPort.lean ====
section
/-! DEFINITION. The host's side of the interface: the CSR map (`10_state.md` R22), CSR reads and writes (R23 to R38), byte accesses
to BSMEM and PIXMEM (`20_memory.md` R60, R65, R76), the placement of the three windows on the bus (R73), and reset
(`70_reset_and_hazards.md` R210 to R213). -/

namespace Sys2Proof.Machine

/-! ## The CSR map -/

/-- The CSRs by name (R22). -/
inductive Csr where
  | cmd
  | status
  | result0
  | result1
  | result2
  | bsLen
  | brBytePos
  | brBitPos
  | peekOff
  | ssdLimit
  | ovBase (n : Fin 4)
  | ovPdim (n : Fin 4)
  | ovOrg (n : Fin 4)
  | ovSize (n : Fin 4)
deriving DecidableEq, Repr

/-- The byte offset of a CSR from CSR_BASE (R22). -/
def Csr.offset : Csr → Nat
  | .cmd => 0x00
  | .status => 0x04
  | .result0 => 0x08
  | .result1 => 0x0C
  | .result2 => 0x10
  | .bsLen => 0x18
  | .brBytePos => 0x1C
  | .brBitPos => 0x20
  | .peekOff => 0x24
  | .ssdLimit => 0x28
  | .ovBase n => 0x40 + 0x10 * n.val
  | .ovPdim n => 0x44 + 0x10 * n.val
  | .ovOrg n => 0x48 + 0x10 * n.val
  | .ovSize n => 0x4C + 0x10 * n.val

/-- The CSR of descriptor `n` at byte `k` of its four words (R22). -/
def overlayCsr (n : Fin 4) (k : Nat) : Option Csr :=
  match k with
  | 0x0 => some (.ovBase n)
  | 0x4 => some (.ovPdim n)
  | 0x8 => some (.ovOrg n)
  | 0xC => some (.ovSize n)
  | _ => none

/-- The CSR at an offset, none where R22 says reserved. -/
def csrAt (off : Nat) : Option Csr :=
  match off with
  | 0x00 => some .cmd
  | 0x04 => some .status
  | 0x08 => some .result0
  | 0x0C => some .result1
  | 0x10 => some .result2
  | 0x18 => some .bsLen
  | 0x1C => some .brBytePos
  | 0x20 => some .brBitPos
  | 0x24 => some .peekOff
  | 0x28 => some .ssdLimit
  | _ => if 0x40 ≤ off ∧ off < 0x80 then overlayCsr (Fin.ofNat 4 ((off - 0x40) / 0x10)) (off % 0x10) else none

/-- CMD and the configuration CSRs: the ones whose write is dropped while BUSY = 1 (R37). STATUS takes its write at any time
(R26), and a write to an RO register is ignored (R23). -/
def Csr.heldWhileBusy : Csr → Bool
  | .status => false
  | .result0 => false
  | .result1 => false
  | .result2 => false
  | .cmd => true
  | .bsLen => true
  | .brBytePos => true
  | .brBitPos => true
  | .peekOff => true
  | .ssdLimit => true
  | .ovBase _ => true
  | .ovPdim _ => true
  | .ovOrg _ => true
  | .ovSize _ => true

/-- The value a host read of a CSR returns: its current value, busy or not (R24, R25, R30, R38). -/
def State.csrValue (s : State) : Csr → Word
  | .cmd => s.cmd
  | .status => s.status.word
  | .result0 => s.result0
  | .result1 => s.result1
  | .result2 => s.result2
  | .bsLen => s.bsLen
  | .brBytePos => s.brBytePos
  | .brBitPos => s.brBitPos.setWidth 32
  | .peekOff => s.peekOff
  | .ssdLimit => s.ssdLimit
  | .ovBase n => s.overlays[n].base
  | .ovPdim n => s.overlays[n].pdim
  | .ovOrg n => s.overlays[n].org
  | .ovSize n => s.overlays[n].size

/-- Issue (R36): CMD <- w; PENDING <- w; BUSY <- 1; DONE <- 0. -/
def State.issue (s : State) (w : Word) : State := { s with cmd := w, pending := some w, status := s.status.issue }

/-- Replace descriptor `n` (R33). -/
def State.setOverlay (s : State) (n : Fin 4) (o : Overlay) : State := { s with overlays := s.overlays.set n.val o n.isLt }

/-- A host write the block accepts: issue for CMD (R36), write-one-to-clear for STATUS (R26), min(v, BS_SIZE) for BS_LEN (R28),
the low three bits for BR_BITPOS (R30), nothing for an RO register (R23), the whole word for the rest. -/
def State.csrStore (s : State) (r : Csr) (v : Word) : State :=
  match r with
  | .cmd => s.issue v
  | .status => { s with status := s.status.clear v }
  | .result0 => s
  | .result1 => s
  | .result2 => s
  | .bsLen => { s with bsLen := BitVec.ofNat 32 (min v.toNat s.params.bsSize) }
  | .brBytePos => { s with brBytePos := v }
  | .brBitPos => { s with brBitPos := v.extractLsb' 0 3 }
  | .peekOff => { s with peekOff := v }
  | .ssdLimit => { s with ssdLimit := v }
  | .ovBase n => s.setOverlay n { s.overlays[n] with base := v }
  | .ovPdim n => s.setOverlay n { s.overlays[n] with pdim := v }
  | .ovOrg n => s.setOverlay n { s.overlays[n] with org := v }
  | .ovSize n => s.setOverlay n { s.overlays[n] with size := v }

/-- A host write to a named CSR: dropped, with BUSYERR <- 1, while BUSY = 1, for the CSRs of R37. -/
def State.csrWriteAt (s : State) (r : Csr) (v : Word) : State :=
  if s.status.busy && r.heldWhileBusy then { s with status := s.status.dropped } else s.csrStore r v

/-- A CSR access is a 32-bit one at a multiple of 4 below 0x100 (R23). -/
def csrAccessOk (bytes off : Nat) : Bool := bytes == 4 && off % 4 == 0 && decide (off < 0x100)

/-- A host read in the CSR window (R23): a reserved offset reads 0. -/
def State.csrRead (s : State) (bytes off : Nat) : Except Fault Word :=
  if csrAccessOk bytes off then
    .ok (match csrAt off with
      | some r => s.csrValue r
      | none => 0)
  else .error .badCsrAccess

/-- A host write in the CSR window (R23): a write to a reserved offset is ignored. -/
def State.csrWrite (s : State) (bytes off : Nat) (v : Word) : Except Fault State :=
  if csrAccessOk bytes off then
    .ok (match csrAt off with
      | some r => s.csrWriteAt r v
      | none => s)
  else .error .badCsrAccess

/-! ## The bus -/

/-- What a bus address names: a byte offset of the CSR window, a byte of BSMEM, a sample of PIXMEM (`20_memory.md` R73). -/
inductive Target where
  | csr (off : Nat)
  | bsmem (i : Nat)
  | pixmem (i : Nat)
deriving DecidableEq, Repr

/-- The index of `addr` in a window of `size` bytes at `base`. -/
def windowIndex (base size addr : Nat) : Option Nat :=
  if base ≤ addr ∧ addr < base + size then some (addr - base) else none

/-- The windows that hold a bus address (`20_memory.md` R73: 256, BS_SIZE and PIX_SIZE bytes). -/
def busTargets (p : Params) (addr : Nat) : List Target :=
  ((windowIndex p.csrBase 0x100 addr).map Target.csr).toList ++
    ((windowIndex p.bsmemBase p.bsSize addr).map Target.bsmem).toList ++
    ((windowIndex p.pixmemBase p.pixSize addr).map Target.pixmem).toList

/-- What a bus address names; none when no window holds it, or two do (log 10). DESIGN CHOICE (log 10): an access of any width is
placed by the address of its first byte alone. R73 places the windows and does not say that they are disjoint, so another
window may begin at one of the next three bytes of a CSR word; the access is a CSR access all the same. -/
def busTarget (p : Params) (addr : Nat) : Option Target :=
  match busTargets p addr with
  | [t] => some t
  | _ => none

/-- The host's read at a bus address. No read has a side effect on the block (R23, `20_memory.md` R72). -/
def hostRead (bytes addr : Nat) (s : State) : Host.Outcome State Fault Refusal :=
  match busTarget s.params addr with
  | none => .refused .notOneWindow
  | some (.csr off) =>
    match s.csrRead bytes off with
    | .ok v => .next { s with lastRead := some v }
    | .error f => .fault f
  | some (.bsmem i) =>
    if bytes = 1 then .next { s with lastRead := some ((s.bsByte i).setWidth 32) } else .refused .memoryAccessNotOneByte
  | some (.pixmem i) =>
    if bytes = 1 then .next { s with lastRead := some ((s.pixSample i).setWidth 32) } else .refused .memoryAccessNotOneByte

/-- The host's write at a bus address. A write to BSMEM or PIXMEM while BUSY = 1 is HostRace (`20_memory.md` R76). -/
def hostWrite (bytes addr : Nat) (v : Word) (s : State) : Host.Outcome State Fault Refusal :=
  match busTarget s.params addr with
  | none => .refused .notOneWindow
  | some (.csr off) =>
    match s.csrWrite bytes off v with
    | .ok t => .next t
    | .error f => .fault f
  | some (.bsmem i) =>
    if bytes ≠ 1 then .refused .memoryAccessNotOneByte
    else if s.status.busy then .fault .hostRace
    else .next { s with bsmem := s.bsmem.write i (v.setWidth 8) }
  | some (.pixmem i) =>
    if bytes ≠ 1 then .refused .memoryAccessNotOneByte
    else if s.status.busy then .fault .hostRace
    else .next { s with pixmem := s.pixmem.write i (v.setWidth 8) }

/-! ## Reset -/

/-- Reset (`70_reset_and_hazards.md` R210 to R213): every CSR zero, PENDING empty, a command in flight abandoned without its writes,
the memories unspecified anew; the tables (`10_state.md` R41) and parameters are constants. What the host has read, and the
inputs still to come, are not the block's. -/
def State.applyReset (s : State) : State :=
  { State.afterReset s.params s.tzTable s.rbTable (s.epoch + 1) with inputs := s.inputs, lastRead := s.lastRead }

end Sys2Proof.Machine
end

