-- ==== Sys2Proof/Machine/Schedule.lean ====
section
/-! DEFINITION. Whose turn it is: the next input, or the block when there is none (`00_scope.md` R13, `20_memory.md` R75, log 6),
and what stops a launch before any step (`41_vlc.md` R121, `00_scope.md` R8). -/

namespace Sys2Proof.Machine

/-- What stops every step of a launch: a parameter out of R8's range (log 12), a table that fails R121 ("a model must refuse
(take no step from a launch with) a table T that fails"; the fault is `60_exceptions.md` R196's). -/
def launchStop (s : State) : Option (Host.Outcome State Fault Refusal) :=
  if !s.params.inRange then some (.refused .parameterOutOfRange)
  else if !(s.tzTable.wfTz && s.rbTable.wf) then some (.fault .illFormedTable)
  else none

/-- `WAIT` (`30_encoding.md` R87): while BUSY = 1 the host's polls change nothing, so the block moves and the host goes on
waiting (log 7); then the host's read of STATUS ends the loop. DESIGN CHOICE (log 7): that read is not put on the bus. R87 names STATUS and
no address, so WAIT succeeds also where the platform lays another window over STATUS's address, a place at which the read of
`RD STATUS`, an access at a bus address, is refused (log 10). -/
def waitStep (rest : List Input) (s : State) : Host.Outcome State Fault Refusal :=
  if s.status.busy then blockStep s else .next { s with inputs := rest, lastRead := some s.status.word }

/-- One step of the system: the next input, or the block's completion step when no input is left. -/
def schedule (s : State) : Host.Outcome State Fault Refusal :=
  match s.inputs with
  | [] => blockStep s
  | .read bytes addr :: rest => hostRead bytes addr { s with inputs := rest }
  | .write bytes addr v :: rest => hostWrite bytes addr v { s with inputs := rest }
  | .wait :: rest => waitStep rest s
  | .complete :: rest => blockStep { s with inputs := rest }
  | .reset :: rest => .next (State.applyReset { s with inputs := rest })

/-- The state in which the command word `w` has just been issued (`10_state.md` R36) and the block moves next. -/
def State.withIssued (s : State) (w : Word) : State := { s.issue w with inputs := [] }

end Sys2Proof.Machine
end

