-- ==== Sys2Proof/Machine/Step.lean ====
section
/-! DEFINITION. The step, and the state in which a given word is the next to run. -/

namespace Sys2Proof.Machine

/-- One step: nothing from an ill-formed launch, else whatever is next (`Schedule.lean`). -/
def step (s : State) : Host.Outcome State Fault Refusal :=
  match launchStop s with
  | some o => o
  | none => schedule s

/-- `s` with the low `nbits` bits of `w` issued as the command word (`10_state.md` R36) and the block to move next: the block
fetches nothing, so issuing is what makes a word the next to run (log 9). -/
def State.withFetchWord (s : State) (nbits w : Nat) : State := s.withIssued (BitVec.ofNat 32 (w % 2 ^ nbits))

end Sys2Proof.Machine
end

