-- ==== Sys2Proof/Machine/Pseudo.lean ====
section
/-! DEFINITION. The assembler syntax (`30_encoding.md` R87) and the pseudo-commands (R88): what the host's accesses are for each.
Only inputs are built here; what they do is in `Schedule.lean`. -/

namespace Sys2Proof.Machine

/-- `WR reg, v` (R87). -/
def wr (p : Params) (r : Csr) (v : Word) : Input := .write 4 (p.csrBase + r.offset) v

/-- `RD reg` (R87). -/
def rd (p : Params) (r : Csr) : Input := .read 4 (p.csrBase + r.offset)

/-- A command of R87: `CMD <- word`. -/
def command (p : Params) (i : Instr) : Input := wr p .cmd (encode i)

/-- The pseudo-commands (R88). -/
inductive Pseudo where
  /-- `SEEK p`: set the cursor to a bit offset. -/
  | seek (q : Nat)
  /-- `SETORG n, x, y`: the document's SetOrigin. -/
  | setOrg (n : Fin 4) (x y : Nat)
  /-- `PEEK off, n`. -/
  | peek (off n : Nat)
  /-- `SSDB_L p, q, L`: SSDB with limit L. -/
  | ssdbL (p q limit : Nat)
  /-- `CLRERR`: clear ERR and BUSYERR. -/
  | clrErr
  /-- `RUN cmd`: wait, issue, wait, then read STATUS and the RESULT registers. -/
  | run (i : Instr)
deriving DecidableEq, Repr

/-- The fixed sequence of host accesses of each pseudo-command (R88). -/
def Pseudo.accesses (p : Params) : Pseudo → List Input
  | .seek q => [wr p .brBytePos (BitVec.ofNat 32 (q >>> 3)), wr p .brBitPos (BitVec.ofNat 32 (q &&& 7))]
  | .setOrg n x y => [wr p (.ovOrg n) (BitVec.ofNat 32 (y <<< 16 ||| x))]
  | .peek off n => [wr p .peekOff (BitVec.ofNat 32 off), command p (.pkbits n)]
  | .ssdbL a b limit => [wr p .ssdLimit (BitVec.ofNat 32 limit), command p (.ssdb a b)]
  | .clrErr => [wr p .status 0x0000000C]
  | .run i => [.wait, command p i, .wait, rd p .status, rd p .result0, rd p .result1, rd p .result2]

end Sys2Proof.Machine
end

