-- ==== Sys2Proof/Safety.lean ====
section
/-! DEFINITION. What the claims call a good state and a good launch. -/

namespace Sys2Proof.Machine

/-- A launch the model takes steps from: the parameters in the range of `00_scope.md` R8 and the tables well formed
(`41_vlc.md` R121). -/
def State.launchOk (s : State) : Prop := s.params.inRange = true ∧ s.tzTable.wfTz = true ∧ s.rbTable.wf = true

/-- What holds of every state a run reaches. -/
structure State.Inv (s : State) : Prop where
  /-- PENDING is empty exactly when BUSY = 0 (`10_state.md` R35). -/
  pending_iff_busy : s.pending.isSome = s.status.busy
  /-- CMD "holds the same word" as PENDING (`10_state.md` R35). -/
  pending_is_cmd : ∀ w, s.pending = some w → s.cmd = w
  /-- DONE is 1 only "until the next command is accepted" (`10_state.md` R25). -/
  busy_not_done : s.status.busy = true → s.status.done = false
  /-- ERRCODE values 9 to 15 are never produced (`10_state.md` R25, `60_exceptions.md` R180). -/
  errCode_assigned : s.status.errCode ≤ 8
  /-- BS_LEN is at most BS_SIZE (`10_state.md` R28). -/
  bsLen_le : s.bsLen.toNat ≤ s.params.bsSize
  /-- Both memories are in canonical form and list only their own indices (`20_memory.md` R60, R65). -/
  bsmem_wf : s.bsmem.wf = true
  bsmem_below : s.bsmem.below s.params.bsSize = true
  pixmem_wf : s.pixmem.wf = true
  pixmem_below : s.pixmem.below s.params.pixSize = true

/-- STATUS after a command has ended with code `c` (`10_state.md` R39): ERRCODE is the code, ERR is set if it is not 0,
BUSYERR is kept. -/
def Status.after (st : Status) (c : BitVec 4) : Status :=
  { busy := false, done := true, err := st.err || c != 0, busyErr := st.busyErr, errCode := c }

/-- The state after a command has ended with code `c` and written nothing else (`60_exceptions.md` R183). -/
def State.ended (s : State) (c : BitVec 4) : State := { s with status := s.status.after c, pending := none }

/-- What no command writes: the configuration CSRs, CMD, BSMEM, the constants, and the model's own fields. -/
structure State.SameConfig (s t : State) : Prop where
  params : t.params = s.params
  tzTable : t.tzTable = s.tzTable
  rbTable : t.rbTable = s.rbTable
  cmd : t.cmd = s.cmd
  bsLen : t.bsLen = s.bsLen
  peekOff : t.peekOff = s.peekOff
  ssdLimit : t.ssdLimit = s.ssdLimit
  overlays : t.overlays = s.overlays
  bsmem : t.bsmem = s.bsmem
  epoch : t.epoch = s.epoch
  inputs : t.inputs = s.inputs
  lastRead : t.lastRead = s.lastRead

end Sys2Proof.Machine
end

