-- ==== Sys2Proof/Certificates/Slice0/Obligations.lean ====
section
/-! DEFINITION. The statements about the model, from the numbered rules of the spec. The helpers of `Sys2Proof.Claims` write the
spec's formulas a second time, from the text and not from the meanings, so that a statement says something of the model. -/

namespace Sys2Proof.Claims

open Sys2Proof.Machine

/-! ## Helpers: encodings -/

/-- The assigned opcodes of the map (`30_encoding.md` R81). -/
def assignedOpcodes : List Nat := [0x00, 0x01, 0x02, 0x03, 0x10, 0x11, 0x12, 0x13, 0x14, 0x20, 0x21, 0x22]

/-- The operand bits the command of an opcode uses, as the map of R81 lists them ("A[5:0] is word bits 13:8; A[3:0] is bits
11:8; A[1:0] is bits 9:8; B[3:0] is bits 19:16; B[1:0] is bits 17:16; C[1:0] is bits 25:24; C[3:2] is bits 27:26"). -/
def usedBits (op : Nat) : List Nat :=
  if op = 0x02 ∨ op = 0x03 then [8, 9, 10, 11, 12, 13]
  else if op = 0x10 ∨ op = 0x12 then [8, 9, 10, 11, 16, 17, 18, 19]
  else if op = 0x11 ∨ op = 0x13 then [16, 17, 18, 19]
  else if op = 0x20 ∨ op = 0x21 then [8, 9, 16, 17]
  else if op = 0x22 then [8, 9, 16, 17, 24, 25, 26, 27]
  else []

/-- The OP byte of a word is `op` (R80). -/
def hasOpcode (w : Word) (op : Nat) : Prop := w.toNat % 256 = op

/-- A reserved operand bit of the opcode's command is 1 (R83). -/
def reservedBitSet (op : Nat) (w : Word) : Prop := ∃ k, 8 ≤ k ∧ k < 32 ∧ k ∉ usedBits op ∧ w.getLsbD k = true

/-- A word with this opcode and a reserved bit set fails with ILLEGAL_CMD and does nothing else (R83). -/
def ReservedBitsFail (op : Nat) : Prop :=
  ∀ (w : Word) (s : State), hasOpcode w op → reservedBitSet op w → runWord w s = .next (s.ended 8)

/-! ## Helpers: the stream -/

/-- The stream bits that may be read, 8 * BS_LEN (`20_memory.md` R61). -/
def streamEnd (s : State) : Nat := 8 * s.bsLen.toNat

/-- The state after a command that read `n` bits from the cursor as the value `v`: the three RESULT registers and the cursor
(`40_bitreader.md` R102, R103; `00_scope.md` R11), on top of a completion without error. -/
def consumed (s : State) (v r1 n : Nat) : State :=
  { s.ended 0 with
    result0 := BitVec.ofNat 32 v, result1 := BitVec.ofNat 32 r1, result2 := BitVec.ofNat 32 n,
    brBytePos := BitVec.ofNat 32 ((s.cursor + n) / 8), brBitPos := BitVec.ofNat 3 ((s.cursor + n) % 8) }

/-- The unsigned integer whose byte i is BSMEM[i], for i below `k` (`20_memory.md` R64). -/
def littleEndian (s : State) : Nat → Nat
  | 0 => 0
  | k + 1 => littleEndian s k + (s.bsByte k).toNat * 2 ^ (8 * k)

/-- PKBITS commands one after another, the host setting PEEK_OFF before each. -/
def afterPeeks : List (Word × Nat) → State → Host.Outcome State Fault Refusal
  | [], s => .next s
  | (off, n) :: rest, s =>
    match exec (.pkbits n) { s with peekOff := off } with
    | .next t => afterPeeks rest t
    | o => o

/-! ## Helpers: the tables -/

/-- Some code of the column has this length (the set C of `41_vlc.md` R125 is not empty). -/
def hasLength (t : VlcTable) (ctx len : Nat) : Prop := ∃ sym < 16, (t.entry sym ctx).numBits = len

/-- The code of the symbol is `len` bits long and stands at the cursor (R122: "BsBits(p, n) = c"). -/
def codeAtCursor (s : State) (t : VlcTable) (ctx sym len : Nat) : Prop :=
  sym < 16 ∧ (t.entry sym ctx).numBits = len ∧ s.bsBits s.cursor len = (t.entry sym ctx).codeWord.toNat

/-- The lengths below `len` decide nothing: where the column has a code of such a length, it fits the stream and none stands
at the cursor (R125). -/
def undecidedBelow (s : State) (t : VlcTable) (ctx len : Nat) : Prop :=
  ∀ l, 1 ≤ l → l < len → hasLength t ctx l →
    s.cursor + l ≤ streamEnd s ∧ ∀ sym, ¬codeAtCursor s t ctx sym l

/-- What Decode2 answers, in the three ways R125 allows, by the first length that decides. -/
def DecodesAs (s : State) (t : VlcTable) (ctx : Nat) (o : Host.Outcome State Fault Refusal) : Prop :=
  (∀ sym len, 1 ≤ len → len ≤ 16 → codeAtCursor s t ctx sym len → s.cursor + len ≤ streamEnd s →
    undecidedBelow s t ctx len → o = .next (consumed s sym ctx len)) ∧
  (∀ len, 1 ≤ len → len ≤ 16 → hasLength t ctx len → streamEnd s < s.cursor + len →
    undecidedBelow s t ctx len → o = .next (s.ended 1)) ∧
  (undecidedBelow s t ctx 17 → o = .next (s.ended 2))

/-- `41_vlc.md` R121, conditions 1 to 3, as written there. -/
def TableConditions (t : VlcTable) : Prop :=
  ∀ ctx < 16, ∀ s < 16,
    (t.entry s ctx).numBits ≤ 16 ∧ (t.entry s ctx).codeWord.toNat < 2 ^ (t.entry s ctx).numBits ∧
    ((t.entry s ctx).numBits = 0 → (t.entry s ctx).codeWord = 0) ∧
    ∀ u < 16, s ≠ u → 0 < (t.entry s ctx).numBits → (t.entry s ctx).numBits ≤ (t.entry u ctx).numBits →
      (t.entry u ctx).codeWord.toNat % 2 ^ (t.entry s ctx).numBits ≠ (t.entry s ctx).codeWord.toNat

/-- What Encode2 answers (`41_vlc.md` R126, R128): the results in every case, VLC_INVALID_PAIR when numBits = 0. -/
def EncodesAs (s : State) (e : VlcEntry) (o : Host.Outcome State Fault Refusal) : Prop :=
  o = .next { s.ended (if e.numBits = 0 then 3 else 0) with
    result0 := e.codeWord.setWidth 32, result1 := BitVec.ofNat 32 e.numBits, result2 := 0 }

/-! ## Helpers: windows -/

/-- SizeOK (`42_pixel.md` R151). -/
def sized (o : Overlay) : Prop := 1 ≤ o.w ∧ o.w ≤ 256 ∧ 1 ≤ o.h ∧ o.h ≤ 256

/-- WinOK (`20_memory.md` R68), written out with PixAddr (R67). -/
def placed (o : Overlay) (size : Nat) (x y : Int) : Prop :=
  0 ≤ x ∧ 0 ≤ y ∧ x + o.w ≤ o.pw ∧ y + o.h ≤ o.ph ∧
    (o.base.toNat : Int) + (y + o.h - 1) * o.pw + (x + o.w - 1) < size

/-- The sample of `o` at column `c` and row `r`, at index BASE + r * PW + c of PIXMEM (`20_memory.md` R66, R67). -/
def sampleAt (s : State) (o : Overlay) (c r : Int) : Nat :=
  (s.pixSample ((o.base.toNat : Int) + r * o.pw + c).toNat).toNat

/-- The exact sum of squared differences of two windows (`42_pixel.md` R153). -/
def exactSsd (s : State) (p q : Overlay) : Int :=
  ∑ i ∈ Finset.range p.h, ∑ j ∈ Finset.range p.w,
    ((sampleAt s p (p.x + j) (p.y + i) : Int) - sampleAt s q (q.x + j) (q.y + i)) ^ 2

/-- The sum over the first `k` samples in raster order: sample m is at column m % W and row m / W (`42_pixel.md` R150, R154). -/
def partialSsd (s : State) (p q : Overlay) (k : Nat) : Int :=
  ∑ m ∈ Finset.range k,
    ((sampleAt s p (p.x + (m % p.w : Nat)) (p.y + (m / p.w : Nat)) : Int) -
      sampleAt s q (q.x + (m % p.w : Nat)) (q.y + (m / p.w : Nat))) ^ 2

/-- Two windows that pass the checks of SSD and SSDB (`42_pixel.md` R153). -/
def comparable (s : State) (p q : Overlay) : Prop :=
  sized p ∧ sized q ∧ p.w = q.w ∧ p.h = q.h ∧ placed p s.params.pixSize p.x p.y ∧ placed q s.params.pixSize q.x q.y

/-- The errors of SSD and SSDB, in the order BAD_PARAM, DIM_MISMATCH, PIX_OOB (`42_pixel.md` R153, `60_exceptions.md` R182). -/
def SsdErrors (s : State) (p q : Overlay) (o : Host.Outcome State Fault Refusal) : Prop :=
  (¬(sized p ∧ sized q) → o = .next (s.ended 7)) ∧
  (sized p ∧ sized q → ¬(p.w = q.w ∧ p.h = q.h) → o = .next (s.ended 6)) ∧
  (sized p ∧ sized q → p.w = q.w ∧ p.h = q.h →
    ¬(placed p s.params.pixSize p.x p.y ∧ placed q s.params.pixSize q.x q.y) → o = .next (s.ended 5))

/-- HalfAvg (`42_pixel.md` R156). -/
def halfAverage (r : HpelRound) (a b : Nat) : Nat := if r = .up then (a + b + 1) / 2 else (a + b) / 2

/-- A source, its shift and a destination that pass the checks of HPEL (`42_pixel.md` R155). -/
def filterable (s : State) (src dst : Overlay) (dx dy : Int) : Prop :=
  sized src ∧ sized dst ∧ src.w = dst.w ∧ src.h = dst.h ∧ placed src s.params.pixSize src.x src.y ∧
    placed src s.params.pixSize (src.x + dx) (src.y + dy) ∧ placed dst s.params.pixSize dst.x dst.y

/-- The errors of HPEL in their order, none of which writes a sample (`42_pixel.md` R155, `60_exceptions.md` R182). -/
def HpelErrors (s : State) (src dst : Overlay) (dx dy : Option Int) (o : Host.Outcome State Fault Refusal) : Prop :=
  (dx = none ∨ dy = none → o = .next (s.ended 7)) ∧
  ∀ x y, dx = some x → dy = some y →
    (¬(sized src ∧ sized dst) → o = .next (s.ended 7)) ∧
    (sized src ∧ sized dst → ¬(src.w = dst.w ∧ src.h = dst.h) → o = .next (s.ended 6)) ∧
    (sized src ∧ sized dst → src.w = dst.w ∧ src.h = dst.h →
      ¬(placed src s.params.pixSize src.x src.y ∧ placed src s.params.pixSize (src.x + x) (src.y + y) ∧
        placed dst s.params.pixSize dst.x dst.y) → o = .next (s.ended 5))

/-! ## Helpers: the host's CSR accesses -/

/-- The offsets of CMD and the configuration CSRs (`10_state.md` R22, R37). -/
def configOffset (off : Nat) : Prop :=
  off ∈ [0x00, 0x18, 0x1C, 0x20, 0x24, 0x28] ∨ (0x40 ≤ off ∧ off < 0x80 ∧ off % 4 = 0)

/-- The reserved offsets (`10_state.md` R22). -/
def reservedOffset (off : Nat) : Prop :=
  off % 4 = 0 ∧ (off = 0x14 ∨ (0x2C ≤ off ∧ off ≤ 0x3C) ∨ (0x80 ≤ off ∧ off ≤ 0xFC))

/-- A host access, through the step, of the CSR at `off`: the address CSR_BASE + off of its first byte lies in the CSR window alone. Where
another window begins inside the CSR's word it counts all the same, the model's choice (log 10). -/
def csrAlone (p : Params) (off : Nat) : Prop := busTarget p (p.csrBase + off) = some (.csr off)

end Sys2Proof.Claims

open Sys2Proof Sys2Proof.Machine Sys2Proof.Claims

/-! # Encoding -/

/-- Decoding what the assembler gives for a command gives the command back (`30_encoding.md` R86, R87). -/
def Obligations.DecodeOfEncodeIsTheCommand : Prop :=
  ∀ i : Instr, i.wf = true → decode (encode i) = .ok i

/-- A word that decodes is the word the assembler gives for what it decodes to: no two words mean one command, and no operand
bit is dropped (`30_encoding.md` R86). -/
def Obligations.EncodeOfDecodeIsTheWord : Prop :=
  ∀ (w : Word) (i : Instr), decode w = .ok i → i.wf = true ∧ encode i = w

/-- `30_encoding.md` R86. -/
def Obligations.EveryWordIsOneRowOrIllegal : Prop :=
  (∀ (j k : Nat) (r q : OpRow), opTable[j]? = some r → opTable[k]? = some q → j ≠ k → r.pattern.toNat % 256 ≠ q.pattern.toNat % 256) ∧
  ∀ w : Word,
    (∃ (k : Nat) (r : OpRow), opTable[k]? = some r ∧ w &&& r.mask = r.pattern ∧ decode w = .ok (r.build w) ∧
      ∀ (j : Nat) (q : OpRow), opTable[j]? = some q → w &&& q.mask = q.pattern → j = k) ∨
    ((∀ r ∈ opTable, w &&& r.mask ≠ r.pattern) ∧ ∀ s : State, runWord w s = .next (s.ended 8))

/-- `30_encoding.md` R90: the worked encodings, from the word to the command and back. -/
def Obligations.WorkedEncodingsDecode : Prop :=
  ∀ x ∈ ([(0x00000C02, .rdbits 12), (0x00002002, .rdbits 32), (0x00000803, .pkbits 8), (0x00010010, .encTz 0 1),
      (0x00010011, .decTz 1), (0x00030011, .decTz 3), (0x00060612, .encRb 6 6), (0x00040013, .decRb 4), (0x00010020, .ssd 0 1),
      (0x00010021, .ssdb 0 1), (0x01020122, .hpel 1 2 .plusOne .zero), (0x0F020022, .hpel 0 2 .minusOne .minusOne),
      (0x07020122, .hpel 1 2 .minusOne .plusOne)] : List (Word × Instr)),
    decode x.1 = .ok x.2 ∧ encode x.2 = x.1

/-- `30_encoding.md` R84. -/
def Obligations.UnassignedOpcodeFailsIllegal : Prop :=
  ∀ (w : Word) (s : State) (op : Nat), hasOpcode w op →
    ((0x04 ≤ op ∧ op ≤ 0x0F) ∨ (0x15 ≤ op ∧ op ≤ 0x1F) ∨ (0x23 ≤ op ∧ op ≤ 0xFF)) →
    decode w = .error .unassignedOpcode ∧ runWord w s = .next (s.ended 8)

/-- `30_encoding.md` R83. -/
def Obligations.ReservedBitFailsIllegal : Prop :=
  ∀ (w : Word) (s : State) (op : Nat), op ∈ assignedOpcodes → hasOpcode w op → reservedBitSet op w →
    decode w = .error .reservedBitSet ∧ runWord w s = .next (s.ended 8)

/-- `30_encoding.md` R82: each operand is the unsigned value of its field. -/
def Obligations.OperandsAreTheirFields : Prop :=
  ∀ w : Word,
    (∀ n, decode w = .ok (.rdbits n) ∨ decode w = .ok (.pkbits n) → n = w.toNat / 2 ^ 8 % 64) ∧
    (∀ a b, decode w = .ok (.encTz a b) ∨ decode w = .ok (.encRb a b) → a = w.toNat / 2 ^ 8 % 16 ∧ b = w.toNat / 2 ^ 16 % 16) ∧
    (∀ b, decode w = .ok (.decTz b) ∨ decode w = .ok (.decRb b) → b = w.toNat / 2 ^ 16 % 16) ∧
    (∀ p q, decode w = .ok (.ssd p q) ∨ decode w = .ok (.ssdb p q) → p = w.toNat / 2 ^ 8 % 4 ∧ q = w.toNat / 2 ^ 16 % 4) ∧
    (∀ s d dx dy, decode w = .ok (.hpel s d dx dy) → s = w.toNat / 2 ^ 8 % 4 ∧ d = w.toNat / 2 ^ 16 % 4 ∧
      dx.bits = w.toNat / 2 ^ 24 % 4 ∧ dy.bits = w.toNat / 2 ^ 26 % 4)

/-- `30_encoding.md` R89, with the failure of the invalid code. -/
def Obligations.ShiftCodesAreTwosComplement : Prop :=
  shiftValue (shiftCodeOf 0) = some 0 ∧ shiftValue (shiftCodeOf 1) = some 1 ∧ shiftValue (shiftCodeOf 3) = some (-1) ∧
    shiftValue (shiftCodeOf 2) = none ∧
    ∀ (s : State) (src dst : Nat) (c : ShiftCode),
      exec (.hpel src dst (shiftCodeOf 2) c) s = .next (s.ended 7) ∧ exec (.hpel src dst c (shiftCodeOf 2)) s = .next (s.ended 7)

/-! # The step and the handshake -/

/-- A step runs the decoded command: while BUSY = 1 the block's step executes PENDING (`10_state.md` R39), at once when no input
is left, when the next input gives it the turn, and when the host waits. -/
def Obligations.StepRunsThePendingCommand : Prop :=
  ∀ (s : State) (w : Word) (i : Instr), s.launchOk → s.status.busy = true → s.pending = some w → decode w = .ok i →
    (s.inputs = [] → step s = exec i s) ∧
    (∀ rest, s.inputs = .wait :: rest → step s = exec i s) ∧
    (∀ rest, s.inputs = .complete :: rest → step s = exec i { s with inputs := rest })

/-- The block "has a step only while STATUS.BUSY = 1" (`00_scope.md` R13). That a run then ends in a refusal is the model's choice (log 8). -/
def Obligations.IdleBlockHasNoStep : Prop :=
  ∀ s : State, s.launchOk → s.status.busy = false → (s.inputs = [] ∨ ∃ rest, s.inputs = .complete :: rest) →
    step s = .refused .idle

/-- Every command completes, whatever the state, and this is what every completion does (`10_state.md` R39) and never does: the
frame all twelve commands share. -/
def Obligations.EveryCommandCompletesInFrame : Prop :=
  ∀ (i : Instr) (s : State), ∃ t, exec i s = .next t ∧ t.status = s.status.after t.status.errCode ∧ t.status.errCode ≤ 8 ∧
    t.pending = none ∧ s.SameConfig t ∧ ∀ a, t.bsByte a = s.bsByte a

/-- `10_state.md` R39, for the whole block: while BUSY = 1 it has a step, which ends the command; and where PENDING holds a word that is
no command, that step ends it with ILLEGAL_CMD and nothing else (`30_encoding.md` R83, R84), in each of the ways the block's turn
comes. For a word that is a command, StepRunsThePendingCommand says the same of `exec`. -/
def Obligations.BusyBlockCompletesInOneStep : Prop :=
  ∀ (s : State) (w : Word), s.launchOk → s.status.busy = true → s.pending = some w →
    (s.inputs = [] → ∃ t, step s = .next t ∧ t.status = s.status.after t.status.errCode ∧ t.status.errCode ≤ 8 ∧
      t.pending = none ∧ s.SameConfig t) ∧
    ∀ e, decode w = .error e →
      (s.inputs = [] → step s = .next (s.ended 8)) ∧
      (∀ rest, s.inputs = .wait :: rest → step s = .next (s.ended 8)) ∧
      (∀ rest, s.inputs = .complete :: rest → step s = .next (State.ended { s with inputs := rest } 8))

/-- `10_state.md` R36, through the step. -/
def Obligations.CmdWriteIssues : Prop :=
  ∀ (s : State) (w : Word) (rest : List Input), s.launchOk → csrAlone s.params 0 → s.status.busy = false →
    s.inputs = .write 4 s.params.csrBase w :: rest →
    step s = .next { s with
      inputs := rest, cmd := w, pending := some w,
      status := { busy := true, done := false, err := s.status.err, busyErr := s.status.busyErr, errCode := s.status.errCode } }

/-- A command the host issues with R87's word runs at the block's next step (`10_state.md` R36, R39; `30_encoding.md` R87). -/
def Obligations.IssuedCommandRunsNext : Prop :=
  ∀ (s : State) (i : Instr) (rest : List Input), s.launchOk → i.wf = true → csrAlone s.params 0 → s.status.busy = false →
    s.inputs = .write 4 s.params.csrBase (encode i) :: .complete :: rest →
    ∃ t u, step s = .next t ∧ t.inputs = .complete :: rest ∧ t.pending = some (encode i) ∧
      exec i { t with inputs := rest } = .next u ∧ step t = .next u

/-- `10_state.md` R37. That a step on such a write answers what `csrWrite` gives is a clause of CsrAccessesOutsideTheMap. -/
def Obligations.WritesWhileBusyAreDropped : Prop :=
  ∀ (s : State) (v : Word), s.status.busy = true →
    (∀ off, configOffset off → s.csrWrite 4 off v = .ok { s with status := { s.status with busyErr := true } }) ∧
    s.csrWrite 4 0x04 v = .ok { s with status := { s.status with
      err := if v.getLsbD 2 then false else s.status.err, busyErr := if v.getLsbD 3 then false else s.status.busyErr } } ∧
    (∀ off, off ∈ [0x08, 0x0C, 0x10] ∨ reservedOffset off → s.csrWrite 4 off v = .ok s)

/-- `10_state.md` R26: at any time, busy or not. Through the step by the clause of CsrAccessesOutsideTheMap. -/
def Obligations.StatusWriteClearsByOnes : Prop :=
  ∀ (s : State) (v : Word), s.csrWrite 4 0x04 v = .ok { s with status := {
    busy := s.status.busy, done := s.status.done, err := if v.getLsbD 2 then false else s.status.err,
    busyErr := if v.getLsbD 3 then false else s.status.busyErr, errCode := s.status.errCode } }

/-- The layout of STATUS (`10_state.md` R22, R25). -/
def Obligations.StatusReadsItsFields : Prop :=
  ∀ s : State, ∃ w, s.csrRead 4 0x04 = .ok w ∧ w.getLsbD 0 = s.status.busy ∧ w.getLsbD 1 = s.status.done ∧
    w.getLsbD 2 = s.status.err ∧ w.getLsbD 3 = s.status.busyErr ∧ w.extractLsb' 4 4 = s.status.errCode ∧
    ∀ k, 8 ≤ k → w.getLsbD k = false

/-- The CSR map (`10_state.md` R22): what a host read gives at each offset, busy or not (R38; the bits of STATUS are in StatusReadsItsFields), and the fields of a descriptor
(R33). -/
def Obligations.CsrReadsFollowTheMap : Prop :=
  ∀ s : State,
    s.csrRead 4 0x00 = .ok s.cmd ∧ s.csrRead 4 0x04 = .ok s.status.word ∧ s.csrRead 4 0x08 = .ok s.result0 ∧ s.csrRead 4 0x0C = .ok s.result1 ∧
    s.csrRead 4 0x10 = .ok s.result2 ∧ s.csrRead 4 0x18 = .ok s.bsLen ∧ s.csrRead 4 0x1C = .ok s.brBytePos ∧
    s.csrRead 4 0x20 = .ok (s.brBitPos.setWidth 32) ∧ s.csrRead 4 0x24 = .ok s.peekOff ∧ s.csrRead 4 0x28 = .ok s.ssdLimit ∧
    (∀ n : Fin 4, s.csrRead 4 (0x40 + 0x10 * n.val) = .ok s.overlays[n].base ∧
      s.csrRead 4 (0x44 + 0x10 * n.val) = .ok s.overlays[n].pdim ∧ s.csrRead 4 (0x48 + 0x10 * n.val) = .ok s.overlays[n].org ∧
      s.csrRead 4 (0x4C + 0x10 * n.val) = .ok s.overlays[n].size) ∧
    (∀ o : Overlay, o.pw = o.pdim.toNat % 2 ^ 16 ∧ o.ph = o.pdim.toNat / 2 ^ 16 ∧ o.x = o.org.toNat % 2 ^ 16 ∧
      o.y = o.org.toNat / 2 ^ 16 ∧ o.w = o.size.toNat % 2 ^ 16 ∧ o.h = o.size.toNat / 2 ^ 16) ∧
    ∀ off, reservedOffset off → s.csrRead 4 off = .ok 0

/-- What a host write to an idle block stores, read back through the map, and that it changes no other CSR: BS_LEN takes
min(v, BS_SIZE) (`10_state.md` R28), BR_BITPOS the low three bits (R30), the RO registers nothing (R23), the others the word (R24, R29,
R31 to R34); a write to CMD changes STATUS as well (R36). Through the step by the clause of CsrAccessesOutsideTheMap. -/
def Obligations.IdleWriteReadsBack : Prop :=
  ∀ (s : State) (off : Nat) (v : Word), s.status.busy = false → off % 4 = 0 → off < 0x100 → off ≠ 0x04 →
    ∃ t, s.csrWrite 4 off v = .ok t ∧
      (off = 0x18 → t.csrRead 4 off = .ok (BitVec.ofNat 32 (min v.toNat s.params.bsSize))) ∧
      (off = 0x20 → t.csrRead 4 off = .ok (BitVec.ofNat 32 (v.toNat % 8))) ∧
      (off ∈ [0x08, 0x0C, 0x10] ∨ reservedOffset off → t = s) ∧
      (configOffset off → off ≠ 0x18 → off ≠ 0x20 → t.csrRead 4 off = .ok v) ∧
      (∀ other, other % 4 = 0 → other < 0x100 → other ≠ off → (off = 0 → other ≠ 0x04) → t.csrRead 4 other = s.csrRead 4 other) ∧
      t.bsmem = s.bsmem ∧ t.pixmem = s.pixmem

/-- `10_state.md` R23: reserved offsets and RO registers, and the accesses outside the interface; and, for every access whose first
byte lies in the CSR window alone (log 10), legal or not, busy or not: a step on a write answers the state `csrWrite` gives, with the input
consumed, or its fault, and a step on a read faults where `csrRead` does (the value it gives otherwise is in
HostReadsChangeNothing). That R23's accesses outside the interface fault, where `60_exceptions.md` R196 leaves fault or no step to the
model, is the model's choice (log 20). -/
def Obligations.CsrAccessesOutsideTheMap : Prop :=
  ∀ (s : State) (v : Word),
    (∀ off, reservedOffset off → s.csrRead 4 off = .ok 0) ∧
    (∀ off, reservedOffset off ∨ off ∈ [0x08, 0x0C, 0x10] → s.csrWrite 4 off v = .ok s) ∧
    (∀ bytes off, bytes ≠ 4 ∨ off % 4 ≠ 0 ∨ 0x100 ≤ off →
      s.csrRead bytes off = .error .badCsrAccess ∧ s.csrWrite bytes off v = .error .badCsrAccess) ∧
    ∀ (bytes addr off : Nat) (rest : List Input), s.launchOk → busTarget s.params addr = some (.csr off) →
      (s.inputs = .write bytes addr v :: rest →
        (∀ t, s.csrWrite bytes off v = .ok t → step s = .next { t with inputs := rest }) ∧
        (∀ f, s.csrWrite bytes off v = .error f → step s = .fault f) ∧
        (bytes ≠ 4 ∨ off % 4 ≠ 0 → step s = .fault .badCsrAccess)) ∧
      (s.inputs = .read bytes addr :: rest →
        (∀ f, s.csrRead bytes off = .error f → step s = .fault f) ∧
        (bytes ≠ 4 ∨ off % 4 ≠ 0 → step s = .fault .badCsrAccess))

/-- No host read has a side effect (`10_state.md` R23, `20_memory.md` R72), and a read of a memory gives its byte, busy or not
(`70_reset_and_hazards.md` R219). -/
def Obligations.HostReadsChangeNothing : Prop :=
  ∀ (s : State) (bytes addr : Nat) (rest : List Input), s.launchOk → s.inputs = .read bytes addr :: rest →
    (∀ t, step s = .next t → ∃ v, t = { s with inputs := rest, lastRead := some v }) ∧
    (∀ off v, busTarget s.params addr = some (.csr off) → s.csrRead bytes off = .ok v →
      step s = .next { s with inputs := rest, lastRead := some v }) ∧
    (∀ i, busTarget s.params addr = some (.bsmem i) → bytes = 1 →
      step s = .next { s with inputs := rest, lastRead := some ((s.bsByte i).setWidth 32) }) ∧
    (∀ i, busTarget s.params addr = some (.pixmem i) → bytes = 1 →
      step s = .next { s with inputs := rest, lastRead := some ((s.pixSample i).setWidth 32) })

/-- Host writes to the memories: a fault while BUSY = 1 (`20_memory.md` R76, `60_exceptions.md` R196), and while idle one byte
and no other (R72), with every register, table and field of the state but that memory and the consumed input as before. -/
def Obligations.HostMemoryWriteIsOneByteOrRace : Prop :=
  ∀ (s : State) (addr i : Nat) (v : Word) (rest : List Input), s.launchOk → s.inputs = .write 1 addr v :: rest →
    (busTarget s.params addr = some (.bsmem i) ∨ busTarget s.params addr = some (.pixmem i)) →
    (s.status.busy = true → step s = .fault .hostRace) ∧
    (s.status.busy = false → ∃ t, step s = .next t ∧ t = { s with inputs := rest, bsmem := t.bsmem, pixmem := t.pixmem } ∧
      (busTarget s.params addr = some (.bsmem i) → (t.bsByte i).toNat = v.toNat % 256 ∧ (∀ a, a ≠ i → t.bsByte a = s.bsByte a) ∧
        ∀ a, t.pixSample a = s.pixSample a) ∧
      (busTarget s.params addr = some (.pixmem i) → (t.pixSample i).toNat = v.toNat % 256 ∧
        (∀ a, a ≠ i → t.pixSample a = s.pixSample a) ∧ ∀ a, t.bsByte a = s.bsByte a))

/-- `SEEK p` sets the cursor to bit offset p (`30_encoding.md` R88), in two host writes (`70_reset_and_hazards.md` R218). -/
def Obligations.SeekSetsTheCursor : Prop :=
  ∀ (s : State) (q : Nat) (rest : List Input), s.launchOk → csrAlone s.params 0x1C → csrAlone s.params 0x20 →
    s.status.busy = false → q < 2 ^ 35 → s.inputs = (Pseudo.seek q).accesses s.params ++ rest →
    ∃ t u, step s = .next t ∧ step t = .next u ∧ u.cursor = q ∧ u.inputs = rest ∧ t.brBitPos = s.brBitPos ∧
      t.brBytePos.toNat = q / 8

/-- `WAIT` on an idle block (`30_encoding.md` R87): the host's read of STATUS sees BUSY = 0 and ends it, and nothing else changes. That
a wait is one input, and that it reads STATUS wherever the bus windows lie, also where another window covers its address, is the
model's choice (log 7); on a busy block it is a clause of StepRunsThePendingCommand. -/
def Obligations.WaitEndsWhenIdle : Prop :=
  ∀ (s : State) (rest : List Input), s.launchOk → s.status.busy = false → s.inputs = .wait :: rest →
    ∃ w, s.csrRead 4 0x04 = .ok w ∧ w.getLsbD 0 = false ∧ step s = .next { s with inputs := rest, lastRead := some w }

/-! # Reset, invariants and whole-machine rules -/

/-- `70_reset_and_hazards.md` R211, for every choice of the parameters and tables; `State.reset` is one of them. -/
def Obligations.EveryCsrReadsZeroAfterReset : Prop :=
  (∀ (p : Params) (tz rb : VlcTable) (epoch : Nat),
    (∀ off, off % 4 = 0 → off < 0x100 → (State.afterReset p tz rb epoch).csrRead 4 off = .ok 0) ∧
    (State.afterReset p tz rb epoch).pending = none ∧
    ∀ w, (State.afterReset p tz rb epoch).csrWrite 4 0 w = .ok { State.afterReset p tz rb epoch with
      cmd := w, pending := some w, status := { busy := true, done := false, err := false, busyErr := false, errCode := 0 } }) ∧
  ∃ p tz rb epoch, State.reset = State.afterReset p tz rb epoch

/-- `70_reset_and_hazards.md` R212. That the model's own fields (inputs, lastRead, epoch) go on is its choice (log 15). -/
def Obligations.ResetAbandonsTheCommand : Prop :=
  ∀ (s : State) (rest : List Input), s.launchOk → s.inputs = .reset :: rest →
    step s = .next { State.afterReset s.params s.tzTable s.rbTable (s.epoch + 1) with inputs := rest, lastRead := s.lastRead }

/-- The invariant holds at reset, whatever the launch. -/
def Obligations.ResetMeetsTheInvariant : Prop :=
  State.reset.Inv ∧ ∀ (p : Params) (tz rb : VlcTable) (epoch : Nat), (State.afterReset p tz rb epoch).Inv

/-- Every step keeps the invariant: the handshake of PENDING, CMD, BUSY and DONE (`10_state.md` R25, R35), the assigned error codes
(R25), BS_LEN within BS_SIZE (R28), both memories canonical and inside their sizes (`20_memory.md` R60, R65). -/
def Obligations.StepKeepsTheInvariant : Prop :=
  ∀ s t : State, s.Inv → step s = .next t → t.Inv

/-- `10_state.md` R41, and the parameters with the tables (R20). -/
def Obligations.NoStepChangesTheTables : Prop :=
  ∀ s t : State, step s = .next t → t.tzTable = s.tzTable ∧ t.rbTable = s.rbTable ∧ t.params = s.params

/-- ERR and BUSYERR are sticky (`10_state.md` R25): only a write of STATUS with their bit, or reset, clears them. -/
def Obligations.StickyBitsClearOnlyByHost : Prop :=
  ∀ s t : State, step s = .next t →
    (s.status.err = true → t.status.err = false → (∃ rest, s.inputs = .reset :: rest) ∨
      ∃ addr v rest, s.inputs = .write 4 addr v :: rest ∧ busTarget s.params addr = some (.csr 0x04) ∧ v.getLsbD 2 = true) ∧
    (s.status.busyErr = true → t.status.busyErr = false → (∃ rest, s.inputs = .reset :: rest) ∨
      ∃ addr v rest, s.inputs = .write 4 addr v :: rest ∧ busTarget s.params addr = some (.csr 0x04) ∧ v.getLsbD 3 = true)

/-- Until the command completes its outputs read as before (`10_state.md` R38, `70_reset_and_hazards.md` R217): a step that leaves the
block busy changes no result, no cursor, no ERRCODE, no configuration and no memory. -/
def Obligations.NothingIsWrittenBeforeCompletion : Prop :=
  ∀ s t : State, s.status.busy = true → step s = .next t → t.status.busy = true →
    t.result0 = s.result0 ∧ t.result1 = s.result1 ∧ t.result2 = s.result2 ∧ t.cursor = s.cursor ∧
    t.status.errCode = s.status.errCode ∧ t.status.done = s.status.done ∧ t.cmd = s.cmd ∧ t.pending = s.pending ∧
    t.bsLen = s.bsLen ∧ t.peekOff = s.peekOff ∧ t.ssdLimit = s.ssdLimit ∧ t.overlays = s.overlays ∧
    t.bsmem = s.bsmem ∧ t.pixmem = s.pixmem

/-- `60_exceptions.md` R183: a command that ends in an error writes nothing else, apart from the three commands it names, which write
RESULT0 to RESULT2 and no more. -/
def Obligations.FailedCommandWritesOnlyItsCode : Prop :=
  (∀ (i : Instr) (s t : State), exec i s = .next t → t.status.errCode ≠ 0 →
    t.status.err = true ∧
    (((∀ a b, i ≠ .encTz a b) ∧ (∀ a b, i ≠ .encRb a b) ∧ i ≠ .dec1) → t = s.ended t.status.errCode) ∧
    ∃ a b c, t = { s.ended t.status.errCode with result0 := a, result1 := b, result2 := c }) ∧
  ∀ (w : Word) (s : State), (∀ i, decode w ≠ .ok i) → runWord w s = .next (s.ended 8) ∧ (s.ended 8).status.err = true

/-- "Only HPEL writes PIXMEM; nothing the block does writes BSMEM" (`00_scope.md` R10). -/
def Obligations.OnlyHpelWritesSamples : Prop :=
  ∀ (i : Instr) (s t : State), exec i s = .next t →
    (∀ a, t.bsByte a = s.bsByte a) ∧
    ((∃ a, t.pixSample a ≠ s.pixSample a) → ∃ src dst dx dy, i = .hpel src dst dx dy)

/-- `41_vlc.md` R121: the check is the four conditions, and no step is taken from a launch that fails them. That the step answers the
fault IllFormedTable, where `60_exceptions.md` R196 leaves fault or no step to the model, and only once the parameters have been
found in range, is the model's choice (log 12). -/
def Obligations.IllFormedTableTakesNoStep : Prop :=
  (∀ t : VlcTable, (t.wf = true ↔ TableConditions t) ∧
    (t.wfTz = true ↔ TableConditions t ∧ t.entry 0 1 = { numBits := 1, codeWord := 1 })) ∧
  ∀ s : State,
    ¬(TableConditions s.tzTable ∧ s.tzTable.entry 0 1 = { numBits := 1, codeWord := 1 } ∧ TableConditions s.rbTable) →
    (∀ t, step s ≠ .next t) ∧ (s.params.inRange = true → step s = .fault .illFormedTable)

/-- `70_reset_and_hazards.md` R214, for every launch. R214 says BS_OOB of RDBITS and PKBITS with n >= 1; for n above 32 the order of the
checks (`60_exceptions.md` R182, with `40_bitreader.md` R103 and R104) gives BAD_PARAM, and that is stated here. A column without
codes, of which R214 says nothing, ends in VLC_NOMATCH (`41_vlc.md` R125). -/
def Obligations.CommandsFromReset : Prop :=
  ∀ (p : Params) (tz rb : VlcTable) (epoch : Nat) (s : State), s = State.afterReset p tz rb epoch →
    exec .rdbit s = .next (s.ended 1) ∧
    (∀ n, 1 ≤ n → n ≤ 32 → exec (.rdbits n) s = .next (s.ended 1) ∧ exec (.pkbits n) s = .next (s.ended 1)) ∧
    (∀ n, 32 < n → exec (.rdbits n) s = .next (s.ended 7) ∧ exec (.pkbits n) s = .next (s.ended 7)) ∧
    exec (.rdbits 0) s = .next (s.ended 0) ∧ exec (.pkbits 0) s = .next (s.ended 0) ∧
    (∀ a b, exec (.ssd a b) s = .next (s.ended 7) ∧ exec (.ssdb a b) s = .next (s.ended 7)) ∧
    (∀ a b dx dy, exec (.hpel a b dx dy) s = .next (s.ended 7)) ∧
    exec .nop s = .next (s.ended 0) ∧
    (∀ c, (∃ len, 1 ≤ len ∧ len ≤ 16 ∧ hasLength tz c len) → exec (.decTz c) s = .next (s.ended 1)) ∧
    (∀ c, (∃ len, 1 ≤ len ∧ len ≤ 16 ∧ hasLength rb c len) → exec (.decRb c) s = .next (s.ended 1)) ∧
    (∀ c, (∀ len, 1 ≤ len → len ≤ 16 → ¬hasLength tz c len) → exec (.decTz c) s = .next (s.ended 2)) ∧
    (∀ c, (∀ len, 1 ≤ len → len ≤ 16 → ¬hasLength rb c len) → exec (.decRb c) s = .next (s.ended 2)) ∧
    (∀ a b, EncodesAs s (tz.entry a b) (exec (.encTz a b) s) ∧ EncodesAs s (rb.entry a b) (exec (.encRb a b) s)) ∧
    exec .dec1 s = .next { s.ended 4 with result0 := p.dec1Sentinel, result1 := 0, result2 := 0 }

/-! # The bit reader -/

/-- `40_bitreader.md` R101. -/
def Obligations.NopOnlyCompletes : Prop :=
  decode 0x00000000 = .ok .nop ∧ (∀ s : State, exec .nop s = .next (s.ended 0)) ∧ ReservedBitsFail 0x00

/-- `40_bitreader.md` R102. -/
def Obligations.RdbitReadsTheBitAtTheCursor : Prop :=
  decode 0x00000001 = .ok .rdbit ∧ ReservedBitsFail 0x01 ∧
  ∀ s : State,
    (s.cursor + 1 ≤ streamEnd s → exec .rdbit s = .next (consumed s (s.bsBit s.cursor) 0 1) ∧
      (consumed s (s.bsBit s.cursor) 0 1).cursor = s.cursor + 1 ∧ s.bsBit s.cursor < 2) ∧
    (streamEnd s < s.cursor + 1 → exec .rdbit s = .next (s.ended 1))

/-- `40_bitreader.md` R103. -/
def Obligations.RdbitsReadsAndAdvances : Prop :=
  (∀ n < 64, decode (BitVec.ofNat 32 (n * 2 ^ 8 + 0x02)) = .ok (.rdbits n)) ∧ ReservedBitsFail 0x02 ∧
  ∀ (s : State) (n : Nat),
    (32 < n → exec (.rdbits n) s = .next (s.ended 7)) ∧
    (n ≤ 32 → streamEnd s < s.cursor + n → exec (.rdbits n) s = .next (s.ended 1)) ∧
    (n ≤ 32 → s.cursor + n ≤ streamEnd s →
      exec (.rdbits n) s = .next (consumed s (s.bsBits s.cursor n) 0 n) ∧
      (consumed s (s.bsBits s.cursor n) 0 n).result0.toNat = s.bsBits s.cursor n ∧
      (consumed s (s.bsBits s.cursor n) 0 n).cursor = s.cursor + n ∧
      (∀ k, n ≤ k → (consumed s (s.bsBits s.cursor n) 0 n).result0.getLsbD k = false))

/-- `40_bitreader.md` R104. -/
def Obligations.PkbitsReadsAtPeekOff : Prop :=
  (∀ n < 64, decode (BitVec.ofNat 32 (n * 2 ^ 8 + 0x03)) = .ok (.pkbits n)) ∧ ReservedBitsFail 0x03 ∧
  ∀ (s : State) (n : Nat),
    (32 < n → exec (.pkbits n) s = .next (s.ended 7)) ∧
    (n ≤ 32 → streamEnd s < s.peekOff.toNat + n → exec (.pkbits n) s = .next (s.ended 1)) ∧
    (n ≤ 32 → s.peekOff.toNat + n ≤ streamEnd s →
      ∃ t, exec (.pkbits n) s = .next t ∧
        t = { s.ended 0 with result0 := BitVec.ofNat 32 (s.bsBits s.peekOff.toNat n), result1 := 0, result2 := 0 } ∧
        t.result0.toNat = s.bsBits s.peekOff.toNat n)

/-- Bit k of a multi-bit read is the k-th stream bit read (`20_memory.md` R62, R63). -/
def Obligations.FirstBitReadIsBitZero : Prop :=
  ∀ (s : State) (p n k : Nat),
    s.bsBits p n < 2 ^ n ∧ ((s.bsBits p n).testBit k = (decide (k < n) && (s.bsByte ((p + k) / 8)).getLsbD ((p + k) % 8)))

/-- `20_memory.md` R64. -/
def Obligations.StreamIsOneLittleEndianNumber : Prop :=
  (∀ (s : State) (p n : Nat), p + n ≤ streamEnd s → s.bsBits p n = littleEndian s s.bsLen.toNat / 2 ^ p % 2 ^ n) ∧
  ∀ (s : State) (a : Nat), 8 * a + 32 ≤ streamEnd s →
    s.bsBits (8 * a) 32 = (s.bsByte a).toNat + (s.bsByte (a + 1)).toNat * 2 ^ 8 + (s.bsByte (a + 2)).toNat * 2 ^ 16 +
      (s.bsByte (a + 3)).toNat * 2 ^ 24

/-- `40_bitreader.md` R105. -/
def Obligations.ReadsCompose : Prop :=
  ∀ (s : State) (n m : Nat), n + m ≤ 32 → s.cursor + n + m ≤ streamEnd s →
    ∃ t u v, exec (.rdbits n) s = .next t ∧ exec (.rdbits m) t = .next u ∧ exec (.rdbits (n + m)) s = .next v ∧
      v.result0.toNat = t.result0.toNat + u.result0.toNat * 2 ^ n ∧
      u.cursor = s.cursor + n + m ∧ v.cursor = s.cursor + n + m ∧
      t.status.errCode = 0 ∧ u.status.errCode = 0 ∧ v.status.errCode = 0

/-- `40_bitreader.md` R106: a PKBITS changes RESULT0 to RESULT2 and STATUS (and ends, emptying PENDING), and after any number of
them an RDBITS returns what it would have returned. -/
def Obligations.PeekingHasNoSideEffect : Prop :=
  (∀ (s : State) (n : Nat), ∃ a b c st, exec (.pkbits n) s =
    .next { s with result0 := a, result1 := b, result2 := c, status := st, pending := none }) ∧
  ∀ (peeks : List (Word × Nat)) (s : State) (m : Nat), ∃ t u v, afterPeeks peeks s = .next t ∧ exec (.rdbits m) t = .next u ∧
    exec (.rdbits m) s = .next v ∧ u.status.errCode = v.status.errCode ∧ u.cursor = v.cursor ∧
    (v.status.errCode = 0 → u.result0 = v.result0 ∧ u.result1 = v.result1 ∧ u.result2 = v.result2)

/-- `40_bitreader.md` R107. -/
def Obligations.PeekEqualsRead : Prop :=
  ∀ (s : State) (n : Nat), s.peekOff.toNat = s.cursor →
    ∃ t u, exec (.pkbits n) s = .next t ∧ exec (.rdbits n) s = .next u ∧ t.result0 = u.result0 ∧
      t = { u with result2 := t.result2, brBytePos := s.brBytePos, brBitPos := s.brBitPos } ∧
      (u.status.errCode = 0 → t.result2 = 0 ∧ u.result2 = BitVec.ofNat 32 n ∧ u.cursor = s.cursor + n)

/-- `40_bitreader.md` R108. -/
def Obligations.RdbitIsRdbitsOne : Prop :=
  ∀ s : State, exec .rdbit s = exec (.rdbits 1) s ∧ ∃ t, exec .rdbit s = .next t ∧ t.status.errCode ≠ 7

/-! # The VLC coder -/

/-- `41_vlc.md` R126. -/
def Obligations.EncTzLooksUpTheEntry : Prop :=
  (∀ tz < 16, ∀ tc < 16, decode (BitVec.ofNat 32 (tc * 2 ^ 16 + tz * 2 ^ 8 + 0x10)) = .ok (.encTz tz tc)) ∧ ReservedBitsFail 0x10 ∧
  ∀ (s : State) (tz tc : Nat), EncodesAs s (s.tzTable.entry tz tc) (exec (.encTz tz tc) s)

/-- `41_vlc.md` R128. -/
def Obligations.EncRbLooksUpTheEntry : Prop :=
  (∀ rb < 16, ∀ zl < 16, decode (BitVec.ofNat 32 (zl * 2 ^ 16 + rb * 2 ^ 8 + 0x12)) = .ok (.encRb rb zl)) ∧ ReservedBitsFail 0x12 ∧
  ∀ (s : State) (rb zl : Nat), EncodesAs s (s.rbTable.entry rb zl) (exec (.encRb rb zl) s)

/-- `41_vlc.md` R127, with R125: the code found, the stream too short for a length that has codes, or no length left. -/
def Obligations.DecTzMatchesTheColumn : Prop :=
  (∀ tc < 16, decode (BitVec.ofNat 32 (tc * 2 ^ 16 + 0x11)) = .ok (.decTz tc)) ∧ ReservedBitsFail 0x11 ∧
  ∀ (s : State) (tc : Nat), s.launchOk → tc < 16 → DecodesAs s s.tzTable tc (exec (.decTz tc) s)

/-- `41_vlc.md` R129, with R125. -/
def Obligations.DecRbMatchesTheColumn : Prop :=
  (∀ zl < 16, decode (BitVec.ofNat 32 (zl * 2 ^ 16 + 0x13)) = .ok (.decRb zl)) ∧ ReservedBitsFail 0x13 ∧
  ∀ (s : State) (zl : Nat), s.launchOk → zl < 16 → DecodesAs s s.rbTable zl (exec (.decRb zl) s)

/-- `41_vlc.md` R131, for both schemes: no premise about shorter lengths, for the tables are prefix codes. -/
def Obligations.DecodeInvertsEncode : Prop :=
  ∀ (s : State) (sym ctx n : Nat), s.launchOk → ctx < 16 → 0 < n → s.cursor + n ≤ streamEnd s →
    (codeAtCursor s s.tzTable ctx sym n → exec (.decTz ctx) s = .next (consumed s sym ctx n) ∧
      (consumed s sym ctx n).cursor = s.cursor + n) ∧
    (codeAtCursor s s.rbTable ctx sym n → exec (.decRb ctx) s = .next (consumed s sym ctx n) ∧
      (consumed s sym ctx n).cursor = s.cursor + n)

/-- `41_vlc.md` R132: a successful decode returns a pair of the table whose code stands at the cursor, and consumes exactly that
entry's numBits; the encode commands and DEC1 consume nothing. -/
def Obligations.DecodeConsumesTheEntryItReturns : Prop :=
  (∀ (s t : State) (ctx : Nat), ctx < 16 → t.status.errCode = 0 →
    (exec (.decTz ctx) s = .next t → codeAtCursor s s.tzTable ctx t.result0.toNat t.result2.toNat ∧
      t.result1.toNat = ctx ∧ t.cursor = s.cursor + (s.tzTable.entry t.result0.toNat ctx).numBits) ∧
    (exec (.decRb ctx) s = .next t → codeAtCursor s s.rbTable ctx t.result0.toNat t.result2.toNat ∧
      t.result1.toNat = ctx ∧ t.cursor = s.cursor + (s.rbTable.entry t.result0.toNat ctx).numBits)) ∧
  ∀ (s t : State) (a b : Nat), exec (.encTz a b) s = .next t ∨ exec (.encRb a b) s = .next t ∨ exec .dec1 s = .next t →
    t.cursor = s.cursor ∧ t.result2 = 0

/-- The one entry the document gives (`41_vlc.md` R121 condition 4, the examples of R126 and R127): for every well-formed table,
(totalZeros = 0, totalCoeffs = 1) encodes to the one bit 1, and that bit decodes to it. -/
def Obligations.DocumentedCodeRoundTrips : Prop :=
  ∀ s : State, s.launchOk →
    exec (.encTz 0 1) s = .next { s.ended 0 with result0 := 1, result1 := 1, result2 := 0 } ∧
    (s.cursor + 1 ≤ streamEnd s → s.bsBit s.cursor = 1 → exec (.decTz 1) s = .next (consumed s 0 1 1))

/-- `41_vlc.md` R130. -/
def Obligations.Dec1ReturnsTheSentinel : Prop :=
  decode 0x00000014 = .ok .dec1 ∧ ReservedBitsFail 0x14 ∧
  ∀ s : State, exec .dec1 s =
    .next { s.ended 4 with result0 := s.params.dec1Sentinel, result1 := 0, result2 := 0 } ∧ (s.ended 4).status.err = true

/-! # Windows -/

/-- `20_memory.md` R68: the check is the formula, and where it holds every sample of the window lies inside the parent and inside
PIXMEM. -/
def Obligations.WindowCheckKeepsSamplesInside : Prop :=
  ∀ (o : Overlay) (size : Nat) (x y : Int),
    (o.winOk size x y = true ↔ placed o size x y) ∧
    (placed o size x y → ∀ i j : Nat, j < o.w → i < o.h →
      0 ≤ x + j ∧ x + j < o.pw ∧ 0 ≤ y + i ∧ y + i < o.ph ∧
      0 ≤ (o.base.toNat : Int) + (y + i) * o.pw + (x + j) ∧ (o.base.toNat : Int) + (y + i) * o.pw + (x + j) < size)

/-- `42_pixel.md` R153. -/
def Obligations.SsdSumsTheSquares : Prop :=
  (∀ p < 4, ∀ q < 4, decode (BitVec.ofNat 32 (q * 2 ^ 16 + p * 2 ^ 8 + 0x20)) = .ok (.ssd p q)) ∧ ReservedBitsFail 0x20 ∧
  ∀ (s : State) (a b : Nat) (p q : Overlay), p = s.overlay a → q = s.overlay b →
    SsdErrors s p q (exec (.ssd a b) s) ∧
    (comparable s p q → ∃ r, exec (.ssd a b) s =
        .next { s.ended 0 with result0 := r, result1 := 0, result2 := BitVec.ofNat 32 (p.w * p.h) } ∧
      (r.toNat : Int) = exactSsd s p q)

/-- `42_pixel.md` R154: the samples accumulated in raster order, the check after every one of them. -/
def Obligations.SsdbStopsAtTheLimit : Prop :=
  (∀ p < 4, ∀ q < 4, decode (BitVec.ofNat 32 (q * 2 ^ 16 + p * 2 ^ 8 + 0x21)) = .ok (.ssdb p q)) ∧ ReservedBitsFail 0x21 ∧
  ∀ (s : State) (a b : Nat) (p q : Overlay), p = s.overlay a → q = s.overlay b →
    SsdErrors s p q (exec (.ssdb a b) s) ∧
    (comparable s p q → ∃ r k, exec (.ssdb a b) s =
        .next { s.ended 0 with
          result0 := r, result1 := if s.ssdLimit.toNat ≤ r.toNat then 1 else 0, result2 := BitVec.ofNat 32 k } ∧
      1 ≤ k ∧ k ≤ p.w * p.h ∧ (r.toNat : Int) = partialSsd s p q k ∧
      (∀ m, 1 ≤ m → m < k → partialSsd s p q m < s.ssdLimit.toNat) ∧
      (k < p.w * p.h → (s.ssdLimit.toNat : Int) ≤ partialSsd s p q k) ∧ (r.toNat : Int) ≤ exactSsd s p q ∧
      (s.ssdLimit.toNat ≤ r.toNat → 0 < s.ssdLimit.toNat → r.toNat < s.ssdLimit.toNat + 65025))

/-- `42_pixel.md` R159, the document's contract, with v <= S (R154). -/
def Obligations.SsdbKeepsTheContract : Prop :=
  ∀ (s : State) (a b : Nat), comparable s (s.overlay a) (s.overlay b) →
    ∃ t u, exec (.ssd a b) s = .next t ∧ exec (.ssdb a b) s = .next u ∧
      (t.result0.toNat < s.ssdLimit.toNat → u.result0 = t.result0 ∧ u.result2 = t.result2 ∧ u.result1 = 0) ∧
      (s.ssdLimit.toNat ≤ t.result0.toNat → s.ssdLimit.toNat ≤ u.result0.toNat ∧ u.result1 = 1) ∧
      u.result0.toNat ≤ t.result0.toNat

/-- `42_pixel.md` R157: no squared difference, no sum of SSD and no running sum of SSDB is above its bound, which is below 2^32, so the
32-bit RESULT0 of either command is the unbounded sum itself. -/
def Obligations.NoSumOverflows : Prop :=
  (∀ (s : State) (p q : Overlay), sized p →
    (s.windowDiffs p q).length ≤ 65536 ∧ (∀ d ∈ s.windowDiffs p q, d ≤ 65025) ∧
    ((s.windowDiffs p q).sum : Int) = exactSsd s p q ∧ (s.windowDiffs p q).sum ≤ 4261478400 ∧ 4261478400 < 2 ^ 32 ∧
    (∀ k ≤ p.w * p.h, (((s.windowDiffs p q).take k).sum : Int) = partialSsd s p q k ∧
      0 ≤ partialSsd s p q k ∧ partialSsd s p q k ≤ 4261478400) ∧
    ∀ lim, (boundedSum lim (s.windowDiffs p q) 0 0).1 ≤ 4261478400) ∧
  ∀ (s : State) (a b : Nat), comparable s (s.overlay a) (s.overlay b) →
    ∃ t u, exec (.ssd a b) s = .next t ∧ exec (.ssdb a b) s = .next u ∧
      (t.result0.toNat : Int) = exactSsd s (s.overlay a) (s.overlay b) ∧ t.result0.toNat ≤ 4261478400 ∧
      (u.result0.toNat : Int) = partialSsd s (s.overlay a) (s.overlay b) u.result2.toNat ∧ u.result0.toNat ≤ 4261478400

/-- `42_pixel.md` R158, its first three points. -/
def Obligations.SsdIsADistance : Prop :=
  ∀ (s : State) (a b : Nat), comparable s (s.overlay a) (s.overlay b) →
    ∃ t u v w, exec (.ssd a b) s = .next t ∧ exec (.ssd b a) s = .next u ∧ exec (.ssd a a) s = .next v ∧
      exec (.ssdb a b) { s with ssdLimit := 0xFFFFFFFF } = .next w ∧
      t.result0 = u.result0 ∧ v.result0 = 0 ∧
      (t.result0 = 0 ↔ ∀ i j : Nat, j < (s.overlay a).w → i < (s.overlay a).h →
        sampleAt s (s.overlay a) ((s.overlay a).x + j) ((s.overlay a).y + i) =
          sampleAt s (s.overlay b) ((s.overlay b).x + j) ((s.overlay b).y + i)) ∧
      w.result0 = t.result0 ∧ w.result2 = t.result2 ∧ w.result1 = 0

/-- `42_pixel.md` R155, with R156: the errors in their order, and otherwise a destination window that holds the averages of the
samples as they were before the command, even where it overlaps the source, with every other sample, every byte of BSMEM, the
results and the cursor unchanged. -/
def Obligations.HpelAveragesIntoTheDestination : Prop :=
  (∀ s < 4, ∀ d < 4, ∀ x y : ShiftCode,
    decode (BitVec.ofNat 32 (y.bits * 2 ^ 26 + x.bits * 2 ^ 24 + d * 2 ^ 16 + s * 2 ^ 8 + 0x22)) = .ok (.hpel s d x y)) ∧
  ReservedBitsFail 0x22 ∧
  ∀ (s : State) (a b : Nat) (cx cy : ShiftCode) (src dst : Overlay), src = s.overlay a → dst = s.overlay b →
    HpelErrors s src dst (shiftValue cx) (shiftValue cy) (exec (.hpel a b cx cy) s) ∧
    ∀ dx dy, shiftValue cx = some dx → shiftValue cy = some dy → filterable s src dst dx dy →
    ∃ t, exec (.hpel a b cx cy) s = .next t ∧ t = { s.ended 0 with pixmem := t.pixmem } ∧
      (∀ i j : Nat, j < dst.w → i < dst.h →
        sampleAt t dst (dst.x + j) (dst.y + i) = halfAverage s.params.hpelRound
          (sampleAt s src (src.x + j) (src.y + i)) (sampleAt s src (src.x + dx + j) (src.y + dy + i))) ∧
      ∀ addr : Nat, (∀ i j : Nat, j < dst.w → i < dst.h →
        (dst.base.toNat : Int) + (dst.y + i) * dst.pw + (dst.x + j) ≠ addr) → t.pixSample addr = s.pixSample addr
end

