-- ==== Sys2Proof/Laws/State.lean ====
section
/-! SUPPORT. One lemma per field per update of the state, true by rfl, so that no later proof unfolds a record update. -/

namespace Sys2Proof.Machine

/-! ## STATUS -/

@[simp] theorem Status.issue_busy (st : Status) : (st.issue).busy = true := rfl
@[simp] theorem Status.issue_done (st : Status) : (st.issue).done = false := rfl
@[simp] theorem Status.issue_err (st : Status) : (st.issue).err = st.err := rfl
@[simp] theorem Status.issue_busyErr (st : Status) : (st.issue).busyErr = st.busyErr := rfl
@[simp] theorem Status.issue_errCode (st : Status) : (st.issue).errCode = st.errCode := rfl

@[simp] theorem Status.complete_busy (st : Status) (c : ErrCode) : (st.complete c).busy = false := rfl
@[simp] theorem Status.complete_done (st : Status) (c : ErrCode) : (st.complete c).done = true := rfl
@[simp] theorem Status.complete_err (st : Status) (c : ErrCode) : (st.complete c).err = (st.err || c != .ok) := rfl
@[simp] theorem Status.complete_busyErr (st : Status) (c : ErrCode) : (st.complete c).busyErr = st.busyErr := rfl
@[simp] theorem Status.complete_errCode (st : Status) (c : ErrCode) : (st.complete c).errCode = c.code := rfl

@[simp] theorem Status.clear_busy (st : Status) (v : Word) : (st.clear v).busy = st.busy := rfl
@[simp] theorem Status.clear_done (st : Status) (v : Word) : (st.clear v).done = st.done := rfl
@[simp] theorem Status.clear_err (st : Status) (v : Word) : (st.clear v).err = (st.err && !v.getLsbD 2) := rfl
@[simp] theorem Status.clear_busyErr (st : Status) (v : Word) : (st.clear v).busyErr = (st.busyErr && !v.getLsbD 3) := rfl
@[simp] theorem Status.clear_errCode (st : Status) (v : Word) : (st.clear v).errCode = st.errCode := rfl

@[simp] theorem Status.dropped_busy (st : Status) : (st.dropped).busy = st.busy := rfl
@[simp] theorem Status.dropped_done (st : Status) : (st.dropped).done = st.done := rfl
@[simp] theorem Status.dropped_err (st : Status) : (st.dropped).err = st.err := rfl
@[simp] theorem Status.dropped_busyErr (st : Status) : (st.dropped).busyErr = true := rfl
@[simp] theorem Status.dropped_errCode (st : Status) : (st.dropped).errCode = st.errCode := rfl

/-! ## The cursor -/

@[simp] theorem State.setCursor_params (s : State) (q : Nat) : (s.setCursor q).params = s.params := rfl
@[simp] theorem State.setCursor_tzTable (s : State) (q : Nat) : (s.setCursor q).tzTable = s.tzTable := rfl
@[simp] theorem State.setCursor_rbTable (s : State) (q : Nat) : (s.setCursor q).rbTable = s.rbTable := rfl
@[simp] theorem State.setCursor_cmd (s : State) (q : Nat) : (s.setCursor q).cmd = s.cmd := rfl
@[simp] theorem State.setCursor_status (s : State) (q : Nat) : (s.setCursor q).status = s.status := rfl
@[simp] theorem State.setCursor_result0 (s : State) (q : Nat) : (s.setCursor q).result0 = s.result0 := rfl
@[simp] theorem State.setCursor_result1 (s : State) (q : Nat) : (s.setCursor q).result1 = s.result1 := rfl
@[simp] theorem State.setCursor_result2 (s : State) (q : Nat) : (s.setCursor q).result2 = s.result2 := rfl
@[simp] theorem State.setCursor_bsLen (s : State) (q : Nat) : (s.setCursor q).bsLen = s.bsLen := rfl
@[simp] theorem State.setCursor_brBytePos (s : State) (q : Nat) : (s.setCursor q).brBytePos = BitVec.ofNat 32 (q / 8) := rfl
@[simp] theorem State.setCursor_brBitPos (s : State) (q : Nat) : (s.setCursor q).brBitPos = BitVec.ofNat 3 (q % 8) := rfl
@[simp] theorem State.setCursor_peekOff (s : State) (q : Nat) : (s.setCursor q).peekOff = s.peekOff := rfl
@[simp] theorem State.setCursor_ssdLimit (s : State) (q : Nat) : (s.setCursor q).ssdLimit = s.ssdLimit := rfl
@[simp] theorem State.setCursor_overlays (s : State) (q : Nat) : (s.setCursor q).overlays = s.overlays := rfl
@[simp] theorem State.setCursor_pending (s : State) (q : Nat) : (s.setCursor q).pending = s.pending := rfl
@[simp] theorem State.setCursor_bsmem (s : State) (q : Nat) : (s.setCursor q).bsmem = s.bsmem := rfl
@[simp] theorem State.setCursor_pixmem (s : State) (q : Nat) : (s.setCursor q).pixmem = s.pixmem := rfl
@[simp] theorem State.setCursor_epoch (s : State) (q : Nat) : (s.setCursor q).epoch = s.epoch := rfl
@[simp] theorem State.setCursor_inputs (s : State) (q : Nat) : (s.setCursor q).inputs = s.inputs := rfl
@[simp] theorem State.setCursor_lastRead (s : State) (q : Nat) : (s.setCursor q).lastRead = s.lastRead := rfl

/-! ## Issue -/

@[simp] theorem State.issue_params (s : State) (w : Word) : (s.issue w).params = s.params := rfl
@[simp] theorem State.issue_tzTable (s : State) (w : Word) : (s.issue w).tzTable = s.tzTable := rfl
@[simp] theorem State.issue_rbTable (s : State) (w : Word) : (s.issue w).rbTable = s.rbTable := rfl
@[simp] theorem State.issue_cmd (s : State) (w : Word) : (s.issue w).cmd = w := rfl
@[simp] theorem State.issue_status (s : State) (w : Word) : (s.issue w).status = s.status.issue := rfl
@[simp] theorem State.issue_result0 (s : State) (w : Word) : (s.issue w).result0 = s.result0 := rfl
@[simp] theorem State.issue_result1 (s : State) (w : Word) : (s.issue w).result1 = s.result1 := rfl
@[simp] theorem State.issue_result2 (s : State) (w : Word) : (s.issue w).result2 = s.result2 := rfl
@[simp] theorem State.issue_bsLen (s : State) (w : Word) : (s.issue w).bsLen = s.bsLen := rfl
@[simp] theorem State.issue_brBytePos (s : State) (w : Word) : (s.issue w).brBytePos = s.brBytePos := rfl
@[simp] theorem State.issue_brBitPos (s : State) (w : Word) : (s.issue w).brBitPos = s.brBitPos := rfl
@[simp] theorem State.issue_peekOff (s : State) (w : Word) : (s.issue w).peekOff = s.peekOff := rfl
@[simp] theorem State.issue_ssdLimit (s : State) (w : Word) : (s.issue w).ssdLimit = s.ssdLimit := rfl
@[simp] theorem State.issue_overlays (s : State) (w : Word) : (s.issue w).overlays = s.overlays := rfl
@[simp] theorem State.issue_pending (s : State) (w : Word) : (s.issue w).pending = some w := rfl
@[simp] theorem State.issue_bsmem (s : State) (w : Word) : (s.issue w).bsmem = s.bsmem := rfl
@[simp] theorem State.issue_pixmem (s : State) (w : Word) : (s.issue w).pixmem = s.pixmem := rfl
@[simp] theorem State.issue_epoch (s : State) (w : Word) : (s.issue w).epoch = s.epoch := rfl
@[simp] theorem State.issue_inputs (s : State) (w : Word) : (s.issue w).inputs = s.inputs := rfl
@[simp] theorem State.issue_lastRead (s : State) (w : Word) : (s.issue w).lastRead = s.lastRead := rfl

/-! ## A descriptor write -/

@[simp] theorem State.setOverlay_params (s : State) (n : Fin 4) (o : Overlay) : (s.setOverlay n o).params = s.params := rfl
@[simp] theorem State.setOverlay_tzTable (s : State) (n : Fin 4) (o : Overlay) : (s.setOverlay n o).tzTable = s.tzTable := rfl
@[simp] theorem State.setOverlay_rbTable (s : State) (n : Fin 4) (o : Overlay) : (s.setOverlay n o).rbTable = s.rbTable := rfl
@[simp] theorem State.setOverlay_cmd (s : State) (n : Fin 4) (o : Overlay) : (s.setOverlay n o).cmd = s.cmd := rfl
@[simp] theorem State.setOverlay_status (s : State) (n : Fin 4) (o : Overlay) : (s.setOverlay n o).status = s.status := rfl
@[simp] theorem State.setOverlay_result0 (s : State) (n : Fin 4) (o : Overlay) : (s.setOverlay n o).result0 = s.result0 := rfl
@[simp] theorem State.setOverlay_result1 (s : State) (n : Fin 4) (o : Overlay) : (s.setOverlay n o).result1 = s.result1 := rfl
@[simp] theorem State.setOverlay_result2 (s : State) (n : Fin 4) (o : Overlay) : (s.setOverlay n o).result2 = s.result2 := rfl
@[simp] theorem State.setOverlay_bsLen (s : State) (n : Fin 4) (o : Overlay) : (s.setOverlay n o).bsLen = s.bsLen := rfl
@[simp] theorem State.setOverlay_brBytePos (s : State) (n : Fin 4) (o : Overlay) : (s.setOverlay n o).brBytePos = s.brBytePos := rfl
@[simp] theorem State.setOverlay_brBitPos (s : State) (n : Fin 4) (o : Overlay) : (s.setOverlay n o).brBitPos = s.brBitPos := rfl
@[simp] theorem State.setOverlay_peekOff (s : State) (n : Fin 4) (o : Overlay) : (s.setOverlay n o).peekOff = s.peekOff := rfl
@[simp] theorem State.setOverlay_ssdLimit (s : State) (n : Fin 4) (o : Overlay) : (s.setOverlay n o).ssdLimit = s.ssdLimit := rfl
@[simp] theorem State.setOverlay_overlays (s : State) (n : Fin 4) (o : Overlay) : (s.setOverlay n o).overlays = s.overlays.set n.val o n.isLt := rfl
@[simp] theorem State.setOverlay_pending (s : State) (n : Fin 4) (o : Overlay) : (s.setOverlay n o).pending = s.pending := rfl
@[simp] theorem State.setOverlay_bsmem (s : State) (n : Fin 4) (o : Overlay) : (s.setOverlay n o).bsmem = s.bsmem := rfl
@[simp] theorem State.setOverlay_pixmem (s : State) (n : Fin 4) (o : Overlay) : (s.setOverlay n o).pixmem = s.pixmem := rfl
@[simp] theorem State.setOverlay_epoch (s : State) (n : Fin 4) (o : Overlay) : (s.setOverlay n o).epoch = s.epoch := rfl
@[simp] theorem State.setOverlay_inputs (s : State) (n : Fin 4) (o : Overlay) : (s.setOverlay n o).inputs = s.inputs := rfl
@[simp] theorem State.setOverlay_lastRead (s : State) (n : Fin 4) (o : Overlay) : (s.setOverlay n o).lastRead = s.lastRead := rfl

/-! ## What a completion writes, register by register -/

@[simp] theorem State.writeResults_params (s : State) (r : Option (Word × Word × Word)) : (s.writeResults r).params = s.params := by
  cases r <;> rfl
@[simp] theorem State.writeResults_tzTable (s : State) (r : Option (Word × Word × Word)) : (s.writeResults r).tzTable = s.tzTable := by
  cases r <;> rfl
@[simp] theorem State.writeResults_rbTable (s : State) (r : Option (Word × Word × Word)) : (s.writeResults r).rbTable = s.rbTable := by
  cases r <;> rfl
@[simp] theorem State.writeResults_cmd (s : State) (r : Option (Word × Word × Word)) : (s.writeResults r).cmd = s.cmd := by
  cases r <;> rfl
@[simp] theorem State.writeResults_status (s : State) (r : Option (Word × Word × Word)) : (s.writeResults r).status = s.status := by
  cases r <;> rfl
@[simp] theorem State.writeResults_bsLen (s : State) (r : Option (Word × Word × Word)) : (s.writeResults r).bsLen = s.bsLen := by
  cases r <;> rfl
@[simp] theorem State.writeResults_brBytePos (s : State) (r : Option (Word × Word × Word)) : (s.writeResults r).brBytePos = s.brBytePos := by
  cases r <;> rfl
@[simp] theorem State.writeResults_brBitPos (s : State) (r : Option (Word × Word × Word)) : (s.writeResults r).brBitPos = s.brBitPos := by
  cases r <;> rfl
@[simp] theorem State.writeResults_peekOff (s : State) (r : Option (Word × Word × Word)) : (s.writeResults r).peekOff = s.peekOff := by
  cases r <;> rfl
@[simp] theorem State.writeResults_ssdLimit (s : State) (r : Option (Word × Word × Word)) : (s.writeResults r).ssdLimit = s.ssdLimit := by
  cases r <;> rfl
@[simp] theorem State.writeResults_overlays (s : State) (r : Option (Word × Word × Word)) : (s.writeResults r).overlays = s.overlays := by
  cases r <;> rfl
@[simp] theorem State.writeResults_pending (s : State) (r : Option (Word × Word × Word)) : (s.writeResults r).pending = s.pending := by
  cases r <;> rfl
@[simp] theorem State.writeResults_bsmem (s : State) (r : Option (Word × Word × Word)) : (s.writeResults r).bsmem = s.bsmem := by
  cases r <;> rfl
@[simp] theorem State.writeResults_pixmem (s : State) (r : Option (Word × Word × Word)) : (s.writeResults r).pixmem = s.pixmem := by
  cases r <;> rfl
@[simp] theorem State.writeResults_epoch (s : State) (r : Option (Word × Word × Word)) : (s.writeResults r).epoch = s.epoch := by
  cases r <;> rfl
@[simp] theorem State.writeResults_inputs (s : State) (r : Option (Word × Word × Word)) : (s.writeResults r).inputs = s.inputs := by
  cases r <;> rfl
@[simp] theorem State.writeResults_lastRead (s : State) (r : Option (Word × Word × Word)) : (s.writeResults r).lastRead = s.lastRead := by
  cases r <;> rfl
@[simp] theorem State.writeResults_result0 (s : State) (r : Option (Word × Word × Word)) :
    (s.writeResults r).result0 = (r.map fun r => r.1).getD s.result0 := by cases r <;> rfl
@[simp] theorem State.writeResults_result1 (s : State) (r : Option (Word × Word × Word)) :
    (s.writeResults r).result1 = (r.map fun r => r.2.1).getD s.result1 := by cases r <;> rfl
@[simp] theorem State.writeResults_result2 (s : State) (r : Option (Word × Word × Word)) :
    (s.writeResults r).result2 = (r.map fun r => r.2.2).getD s.result2 := by cases r <;> rfl

@[simp] theorem State.writeCursor_params (s : State) (q : Option Nat) : (s.writeCursor q).params = s.params := by cases q <;> rfl
@[simp] theorem State.writeCursor_tzTable (s : State) (q : Option Nat) : (s.writeCursor q).tzTable = s.tzTable := by cases q <;> rfl
@[simp] theorem State.writeCursor_rbTable (s : State) (q : Option Nat) : (s.writeCursor q).rbTable = s.rbTable := by cases q <;> rfl
@[simp] theorem State.writeCursor_cmd (s : State) (q : Option Nat) : (s.writeCursor q).cmd = s.cmd := by cases q <;> rfl
@[simp] theorem State.writeCursor_status (s : State) (q : Option Nat) : (s.writeCursor q).status = s.status := by cases q <;> rfl
@[simp] theorem State.writeCursor_result0 (s : State) (q : Option Nat) : (s.writeCursor q).result0 = s.result0 := by cases q <;> rfl
@[simp] theorem State.writeCursor_result1 (s : State) (q : Option Nat) : (s.writeCursor q).result1 = s.result1 := by cases q <;> rfl
@[simp] theorem State.writeCursor_result2 (s : State) (q : Option Nat) : (s.writeCursor q).result2 = s.result2 := by cases q <;> rfl
@[simp] theorem State.writeCursor_bsLen (s : State) (q : Option Nat) : (s.writeCursor q).bsLen = s.bsLen := by cases q <;> rfl
@[simp] theorem State.writeCursor_peekOff (s : State) (q : Option Nat) : (s.writeCursor q).peekOff = s.peekOff := by cases q <;> rfl
@[simp] theorem State.writeCursor_ssdLimit (s : State) (q : Option Nat) : (s.writeCursor q).ssdLimit = s.ssdLimit := by cases q <;> rfl
@[simp] theorem State.writeCursor_overlays (s : State) (q : Option Nat) : (s.writeCursor q).overlays = s.overlays := by cases q <;> rfl
@[simp] theorem State.writeCursor_pending (s : State) (q : Option Nat) : (s.writeCursor q).pending = s.pending := by cases q <;> rfl
@[simp] theorem State.writeCursor_bsmem (s : State) (q : Option Nat) : (s.writeCursor q).bsmem = s.bsmem := by cases q <;> rfl
@[simp] theorem State.writeCursor_pixmem (s : State) (q : Option Nat) : (s.writeCursor q).pixmem = s.pixmem := by cases q <;> rfl
@[simp] theorem State.writeCursor_epoch (s : State) (q : Option Nat) : (s.writeCursor q).epoch = s.epoch := by cases q <;> rfl
@[simp] theorem State.writeCursor_inputs (s : State) (q : Option Nat) : (s.writeCursor q).inputs = s.inputs := by cases q <;> rfl
@[simp] theorem State.writeCursor_lastRead (s : State) (q : Option Nat) : (s.writeCursor q).lastRead = s.lastRead := by cases q <;> rfl
@[simp] theorem State.writeCursor_brBytePos (s : State) (q : Option Nat) :
    (s.writeCursor q).brBytePos = (q.map fun q => BitVec.ofNat 32 (q / 8)).getD s.brBytePos := by cases q <;> rfl
@[simp] theorem State.writeCursor_brBitPos (s : State) (q : Option Nat) :
    (s.writeCursor q).brBitPos = (q.map fun q => BitVec.ofNat 3 (q % 8)).getD s.brBitPos := by cases q <;> rfl

/-! ## The completion step -/

@[simp] theorem State.complete_params (s : State) (c : Completion) :
    (s.complete c).params = s.params := by simp [State.complete]
@[simp] theorem State.complete_tzTable (s : State) (c : Completion) :
    (s.complete c).tzTable = s.tzTable := by simp [State.complete]
@[simp] theorem State.complete_rbTable (s : State) (c : Completion) :
    (s.complete c).rbTable = s.rbTable := by simp [State.complete]
@[simp] theorem State.complete_cmd (s : State) (c : Completion) :
    (s.complete c).cmd = s.cmd := by simp [State.complete]
@[simp] theorem State.complete_status (s : State) (c : Completion) :
    (s.complete c).status = s.status.complete c.code := by simp [State.complete]
@[simp] theorem State.complete_result0 (s : State) (c : Completion) :
    (s.complete c).result0 = (c.results.map fun r => r.1).getD s.result0 := by simp [State.complete]
@[simp] theorem State.complete_result1 (s : State) (c : Completion) :
    (s.complete c).result1 = (c.results.map fun r => r.2.1).getD s.result1 := by simp [State.complete]
@[simp] theorem State.complete_result2 (s : State) (c : Completion) :
    (s.complete c).result2 = (c.results.map fun r => r.2.2).getD s.result2 := by simp [State.complete]
@[simp] theorem State.complete_bsLen (s : State) (c : Completion) :
    (s.complete c).bsLen = s.bsLen := by simp [State.complete]
@[simp] theorem State.complete_brBytePos (s : State) (c : Completion) :
    (s.complete c).brBytePos = (c.cursor.map fun q => BitVec.ofNat 32 (q / 8)).getD s.brBytePos := by simp [State.complete]
@[simp] theorem State.complete_brBitPos (s : State) (c : Completion) :
    (s.complete c).brBitPos = (c.cursor.map fun q => BitVec.ofNat 3 (q % 8)).getD s.brBitPos := by simp [State.complete]
@[simp] theorem State.complete_peekOff (s : State) (c : Completion) :
    (s.complete c).peekOff = s.peekOff := by simp [State.complete]
@[simp] theorem State.complete_ssdLimit (s : State) (c : Completion) :
    (s.complete c).ssdLimit = s.ssdLimit := by simp [State.complete]
@[simp] theorem State.complete_overlays (s : State) (c : Completion) :
    (s.complete c).overlays = s.overlays := by simp [State.complete]
@[simp] theorem State.complete_pending (s : State) (c : Completion) :
    (s.complete c).pending = none := rfl
@[simp] theorem State.complete_bsmem (s : State) (c : Completion) :
    (s.complete c).bsmem = s.bsmem := by simp [State.complete]
@[simp] theorem State.complete_pixmem (s : State) (c : Completion) :
    (s.complete c).pixmem = s.pixmem.writeAll c.samples := by simp [State.complete]
@[simp] theorem State.complete_epoch (s : State) (c : Completion) :
    (s.complete c).epoch = s.epoch := by simp [State.complete]
@[simp] theorem State.complete_inputs (s : State) (c : Completion) :
    (s.complete c).inputs = s.inputs := by simp [State.complete]
@[simp] theorem State.complete_lastRead (s : State) (c : Completion) :
    (s.complete c).lastRead = s.lastRead := by simp [State.complete]

/-! ## Reset -/

@[simp] theorem State.applyReset_params (s : State) : s.applyReset.params = s.params := rfl
@[simp] theorem State.applyReset_tzTable (s : State) : s.applyReset.tzTable = s.tzTable := rfl
@[simp] theorem State.applyReset_rbTable (s : State) : s.applyReset.rbTable = s.rbTable := rfl
@[simp] theorem State.applyReset_cmd (s : State) : s.applyReset.cmd = 0 := rfl
@[simp] theorem State.applyReset_status (s : State) : s.applyReset.status = .zero := rfl
@[simp] theorem State.applyReset_result0 (s : State) : s.applyReset.result0 = 0 := rfl
@[simp] theorem State.applyReset_result1 (s : State) : s.applyReset.result1 = 0 := rfl
@[simp] theorem State.applyReset_result2 (s : State) : s.applyReset.result2 = 0 := rfl
@[simp] theorem State.applyReset_bsLen (s : State) : s.applyReset.bsLen = 0 := rfl
@[simp] theorem State.applyReset_brBytePos (s : State) : s.applyReset.brBytePos = 0 := rfl
@[simp] theorem State.applyReset_brBitPos (s : State) : s.applyReset.brBitPos = 0 := rfl
@[simp] theorem State.applyReset_peekOff (s : State) : s.applyReset.peekOff = 0 := rfl
@[simp] theorem State.applyReset_ssdLimit (s : State) : s.applyReset.ssdLimit = 0 := rfl
@[simp] theorem State.applyReset_overlays (s : State) : s.applyReset.overlays = #v[Overlay.zero, Overlay.zero, Overlay.zero, Overlay.zero] := rfl
@[simp] theorem State.applyReset_pending (s : State) : s.applyReset.pending = none := rfl
@[simp] theorem State.applyReset_bsmem (s : State) : s.applyReset.bsmem = [] := rfl
@[simp] theorem State.applyReset_pixmem (s : State) : s.applyReset.pixmem = [] := rfl
@[simp] theorem State.applyReset_epoch (s : State) : s.applyReset.epoch = s.epoch + 1 := rfl
@[simp] theorem State.applyReset_inputs (s : State) : s.applyReset.inputs = s.inputs := rfl
@[simp] theorem State.applyReset_lastRead (s : State) : s.applyReset.lastRead = s.lastRead := rfl

/-- Both memories of the state after reset are in canonical form: nothing is listed. -/
@[simp] theorem State.afterReset_bsmem_wf (p : Params) (tz rb : VlcTable) (epoch : Nat) :
    (State.afterReset p tz rb epoch).bsmem.wf = true := rfl
@[simp] theorem State.afterReset_pixmem_wf (p : Params) (tz rb : VlcTable) (epoch : Nat) :
    (State.afterReset p tz rb epoch).pixmem.wf = true := rfl

end Sys2Proof.Machine
end

