-- ==== Sys2Proof/Laws/HostPort.lean ====
section
/-! SUPPORT. What a host access can do: one lemma for the CSR writes, one for the read and one for the write at a bus address. -/

namespace Sys2Proof.Machine

/-- Everything a CSR write in the window can do. -/
theorem State.csrWrite_ok {s t : State} {bytes off : Nat} {v : Word} (h : s.csrWrite bytes off v = .ok t) :
    csrAccessOk bytes off = true ∧
      ((csrAt off = none ∧ t = s) ∨ ∃ r, csrAt off = some r ∧ t = s.csrWriteAt r v) := by
  unfold State.csrWrite at h
  split at h
  · rename_i hok
    cases h
    refine ⟨hok, ?_⟩
    cases hr : csrAt off with
    | none => exact .inl ⟨rfl, rfl⟩
    | some r => exact .inr ⟨r, rfl, rfl⟩
  · cases h

/-- A CSR write neither reads nor writes the inputs still to come. -/
theorem State.csrWriteAt_inputs (s : State) (l : List Input) (r : Csr) (v : Word) :
    State.csrWriteAt { s with inputs := l } r v = { s.csrWriteAt r v with inputs := l } := by
  unfold State.csrWriteAt
  split
  · rfl
  · cases r <;> rfl

/-- The same of a write at an offset. -/
theorem State.csrWrite_inputs (s : State) (l : List Input) (bytes off : Nat) (v : Word) :
    State.csrWrite { s with inputs := l } bytes off v =
      (s.csrWrite bytes off v).map fun t => { t with inputs := l } := by
  unfold State.csrWrite
  split
  · cases csrAt off with
    | none => rfl
    | some r => exact congrArg Except.ok (s.csrWriteAt_inputs l r v)
  · rfl

/-- Everything a host read can do. -/
theorem hostRead_next {bytes addr : Nat} {s t : State} (h : hostRead bytes addr s = .next t) :
    ∃ v, t = { s with lastRead := some v } := by
  unfold hostRead at h
  split at h
  · cases h
  · split at h
    · cases h
      exact ⟨_, rfl⟩
    · cases h
  · split at h
    · cases h
      exact ⟨_, rfl⟩
    · cases h
  · split at h
    · cases h
      exact ⟨_, rfl⟩
    · cases h

/-- Everything a host write can do: nothing at a reserved offset, the write of a CSR, or one byte of a memory while the block
is idle. -/
theorem hostWrite_next {bytes addr : Nat} {v : Word} {s t : State} (h : hostWrite bytes addr v s = .next t) :
    t = s ∨ (∃ r, t = s.csrWriteAt r v) ∨
      (∃ i, busTarget s.params addr = some (.bsmem i) ∧ s.status.busy = false ∧
        t = { s with bsmem := s.bsmem.write i (v.setWidth 8) }) ∨
      (∃ i, busTarget s.params addr = some (.pixmem i) ∧ s.status.busy = false ∧
        t = { s with pixmem := s.pixmem.write i (v.setWidth 8) }) := by
  unfold hostWrite at h
  split at h
  · cases h
  · split at h
    · rename_i hw
      cases h
      rcases (State.csrWrite_ok hw).2 with ⟨-, rfl⟩ | ⟨r, -, rfl⟩
      · exact .inl rfl
      · exact .inr (.inl ⟨r, rfl⟩)
    · cases h
  · rename_i i htarget
    split at h
    · cases h
    · split at h
      · cases h
      · rename_i hbusy
        cases h
        exact .inr (.inr (.inl ⟨i, htarget, by simpa using hbusy, rfl⟩))
  · rename_i i htarget
    split at h
    · cases h
    · split at h
      · cases h
      · rename_i hbusy
        cases h
        exact .inr (.inr (.inr ⟨i, htarget, by simpa using hbusy, rfl⟩))

theorem windowIndex_eq_some {base size addr i : Nat} :
    windowIndex base size addr = some i ↔ addr = base + i ∧ i < size := by
  unfold windowIndex
  split
  · simp only [Option.some.injEq]
    omega
  · simp only [reduceCtorEq, false_iff]
    omega

/-- A bus address that names something lies in that window and in no other. -/
theorem busTarget_mem {p : Params} {addr : Nat} {t : Target} (h : busTarget p addr = some t) : t ∈ busTargets p addr := by
  unfold busTarget at h
  split at h
  · rename_i u hu
    cases h
    simp [hu]
  · cases h

/-- The index a bus address names lies inside its memory (`20_memory.md` R73). -/
theorem busTarget_index {p : Params} {addr i : Nat} :
    (busTarget p addr = some (.bsmem i) → i < p.bsSize) ∧ (busTarget p addr = some (.pixmem i) → i < p.pixSize) := by
  constructor <;> intro h <;>
  · have hm := busTarget_mem h
    simp only [busTargets, List.mem_append, Option.mem_toList, Option.map_eq_some_iff, reduceCtorEq, and_false,
      exists_false, false_or, or_false, Target.bsmem.injEq, Target.pixmem.injEq] at hm
    obtain ⟨j, hj, rfl⟩ := hm
    exact (windowIndex_eq_some.1 hj).2

end Sys2Proof.Machine
end

