-- ==== Sys2Proof/Laws/Memory.lean ====
section
/-! SUPPORT. The laws of a memory: a read after a write, the canonical form and the index bound, kept by every operation. -/

namespace Sys2Proof.Machine

@[simp] theorem Memory.byteAt_nil (a : Nat) : Memory.byteAt [] a = none := rfl

/-- A read after a write: the byte written where it was written, the byte read before everywhere else. -/
theorem Memory.byteAt_write (m : Memory) (a : Nat) (v : Byte) (b : Nat) :
    (m.write a v).byteAt b = if a = b then some v else m.byteAt b := by
  induction m with
  | nil => simp [Memory.write, Memory.byteAt]
  | cons c m ih =>
    simp only [Memory.write]
    split
    · simp [Memory.byteAt]
    · split
      · rename_i h
        by_cases hab : a = b <;> simp [Memory.byteAt, hab, h]
      · rename_i h1 h2
        simp only [Memory.byteAt, ih]
        split
        · rename_i h3
          rw [if_neg (by omega)]
        · rfl

/-- The first address of a memory that a write may lower. -/
theorem Memory.head_write (m : Memory) (a : Nat) (v : Byte) (lo : Nat) (ha : lo < a)
    (hm : ∀ c ∈ m.head?, lo < c.1) : ∀ c ∈ (m.write a v).head?, lo < c.1 := by
  cases m with
  | nil => simpa [Memory.write]
  | cons d m =>
    simp only [Memory.write]
    split
    · simpa using ha
    · split
      · simpa using ha
      · simpa using hm

/-- The canonical form, cell by cell. -/
theorem Memory.wf_cons (c : Host.Cell) (m : Memory) :
    Memory.wf (c :: m) = true ↔ (∀ d ∈ m.head?, c.1 < d.1) ∧ m.wf = true := by
  cases m <;> simp [Memory.wf]

/-- A write keeps the canonical form. -/
theorem Memory.wf_write (m : Memory) (a : Nat) (v : Byte) (h : m.wf = true) : (m.write a v).wf = true := by
  induction m with
  | nil => rfl
  | cons c m ih =>
    have hc := (Memory.wf_cons c m).1 h
    simp only [Memory.write]
    split
    · rw [Memory.wf_cons]
      exact ⟨by simpa, h⟩
    · split
      · rename_i h2
        rw [Memory.wf_cons]
        exact ⟨by simpa [← h2] using hc.1, hc.2⟩
      · rw [Memory.wf_cons]
        exact ⟨Memory.head_write m a v c.1 (by omega) hc.1, ih hc.2⟩

/-- A write below a bound keeps the bound. -/
theorem Memory.below_write (m : Memory) (a : Nat) (v : Byte) (size : Nat) (h : m.below size = true) (ha : a < size) :
    (m.write a v).below size = true := by
  induction m with
  | nil => simpa [Memory.below, Memory.write]
  | cons c m ih =>
    have hc : c.1 < size ∧ Memory.below m size = true := by simpa [Memory.below] using h
    simp only [Memory.write]
    split
    · simp only [Memory.below, List.all_cons, Bool.and_eq_true, decide_eq_true_eq] at h ⊢
      exact ⟨ha, h⟩
    · split
      · simp only [Memory.below, List.all_cons, Bool.and_eq_true, decide_eq_true_eq]
        exact ⟨ha, hc.2⟩
      · have := ih hc.2
        simp only [Memory.below, List.all_cons, Bool.and_eq_true, decide_eq_true_eq] at this ⊢
        exact ⟨hc.1, this⟩

/-- A list of writes keeps the canonical form. -/
theorem Memory.wf_writeAll (ws : List (Nat × Byte)) (m : Memory) (h : m.wf = true) : (m.writeAll ws).wf = true := by
  induction ws generalizing m with
  | nil => exact h
  | cons w ws ih => exact ih _ (Memory.wf_write m w.1 w.2 h)

/-- A list of writes below a bound keeps the bound. -/
theorem Memory.below_writeAll (ws : List (Nat × Byte)) (m : Memory) (size : Nat) (h : m.below size = true)
    (hws : ∀ w ∈ ws, w.1 < size) : (m.writeAll ws).below size = true := by
  induction ws generalizing m with
  | nil => exact h
  | cons w ws ih =>
    exact ih _ (Memory.below_write m w.1 w.2 size h (hws w (by simp))) (fun x hx => hws x (by simp [hx]))

/-- An address outside a list of writes reads as before. -/
theorem Memory.byteAt_writeAll_of_not_mem (ws : List (Nat × Byte)) (m : Memory) (a : Nat)
    (h : ∀ w ∈ ws, w.1 ≠ a) : (m.writeAll ws).byteAt a = m.byteAt a := by
  induction ws generalizing m with
  | nil => rfl
  | cons w ws ih =>
    rw [Memory.writeAll, ih _ (fun x hx => h x (by simp [hx])), Memory.byteAt_write, if_neg (h w (by simp))]

/-- An address that a list of writes writes, always with the same byte, reads as that byte. -/
theorem Memory.byteAt_writeAll_of_mem (ws : List (Nat × Byte)) (m : Memory) (a : Nat) (v : Byte)
    (hmem : (a, v) ∈ ws) (hsame : ∀ w ∈ ws, w.1 = a → w.2 = v) : (m.writeAll ws).byteAt a = some v := by
  induction ws generalizing m with
  | nil => simp at hmem
  | cons w ws ih =>
    by_cases h : (a, v) ∈ ws
    · exact ih _ h (fun x hx => hsame x (by simp [hx]))
    · have hw : w = (a, v) := by simpa [h, eq_comm] using hmem
      have hnot : ∀ x ∈ ws, x.1 ≠ a := fun x hx hxa => h (by
        have := hsame x (by simp [hx]) hxa
        rwa [← hxa, ← this])
      rw [Memory.writeAll, Memory.byteAt_writeAll_of_not_mem ws _ a hnot, Memory.byteAt_write, hw]
      simp

end Sys2Proof.Machine
end

