-- ==== Sys2Proof/Laws/Stream.lean ====
section
/-! SUPPORT. The laws of stream reads (`20_memory.md` R62, R63) and of the cursor (`00_scope.md` R11). -/

namespace Sys2Proof.Machine

theorem State.bsBit_lt (s : State) (p : Nat) : s.bsBit p < 2 := Nat.mod_lt _ (by omega)

/-- "a value below 2^n" (R63). -/
theorem State.bsBits_lt (s : State) (p n : Nat) : s.bsBits p n < 2 ^ n := by
  induction n with
  | zero => simp [State.bsBits]
  | succ n ih =>
    have hb := s.bsBit_lt (p + n)
    have : s.bsBit (p + n) * 2 ^ n ≤ 1 * 2 ^ n := Nat.mul_le_mul_right _ (by omega)
    simp only [State.bsBits, Nat.shiftLeft_eq, Nat.pow_succ]
    omega

/-- Two adjacent reads assemble to one, the first in the low-order bits. -/
theorem State.bsBits_add (s : State) (p n m : Nat) :
    s.bsBits p (n + m) = s.bsBits p n + s.bsBits (p + n) m * 2 ^ n := by
  induction m with
  | zero => simp [State.bsBits]
  | succ m ih =>
    rw [← Nat.add_assoc, State.bsBits, ih, State.bsBits, Nat.shiftLeft_eq, Nat.shiftLeft_eq, Nat.pow_add, Nat.add_assoc p n m,
      Nat.add_mul, Nat.mul_assoc, Nat.mul_comm (2 ^ m)]
    ring

/-- A shorter read at the same place is the low-order bits of a longer one. -/
theorem State.bsBits_mod (s : State) (p n m : Nat) : s.bsBits p (n + m) % 2 ^ n = s.bsBits p n := by
  rw [State.bsBits_add, Nat.add_mul_mod_self_right, Nat.mod_eq_of_lt (s.bsBits_lt p n)]

theorem State.bsBits_mod_of_le (s : State) (p : Nat) {n k : Nat} (h : n ≤ k) : s.bsBits p k % 2 ^ n = s.bsBits p n := by
  obtain ⟨m, rfl⟩ := Nat.exists_eq_add_of_le h
  exact s.bsBits_mod p n m

/-- Setting the cursor to a position the two fields can hold sets it to that position (R11). -/
theorem State.cursor_setCursor (s : State) (q : Nat) (h : q < 2 ^ 35) : (s.setCursor q).cursor = q := by
  simp only [State.cursor, State.setCursor, BitVec.toNat_ofNat]
  omega

theorem State.streamBits_lt (s : State) : s.streamBits < 2 ^ 35 := by
  have := s.bsLen.isLt
  simp only [State.streamBits]
  omega

end Sys2Proof.Machine
end

