-- ==== Sys2Proof/Laws/Ops.lean ====
section
/-! SUPPORT. What a command can do, once for all: every arm of `exec` is a completion, and `completionOf` says which. -/

namespace Sys2Proof.Machine

/-- The completion each command comes to. -/
def completionOf (i : Instr) (s : State) : Completion :=
  match i with
  | .nop => { code := .ok }
  | .rdbit => s.readBits 1
  | .rdbits n => if 32 < n then .error .badParam else s.readBits n
  | .pkbits n => if 32 < n then .error .badParam else s.peekBits n
  | .encTz tz tc => encodePair s.tzTable tz tc
  | .decTz tc => s.decodePair s.tzTable tc
  | .encRb rb zl => encodePair s.rbTable rb zl
  | .decRb zl => s.decodePair s.rbTable zl
  | .dec1 => { code := .unsupported, results := some (s.params.dec1Sentinel, 0, 0) }
  | .ssd p q => s.ssdCompletion (s.overlay p) (s.overlay q)
  | .ssdb p q => s.ssdbCompletion (s.overlay p) (s.overlay q)
  | .hpel src dst dx dy => s.hpelCompletion (s.overlay src) (s.overlay dst) (shiftValue dx) (shiftValue dy)

/-- Every command completes, and its completion is all it does. -/
theorem exec_eq (i : Instr) (s : State) : exec i s = .next (s.complete (completionOf i s)) := by cases i <;> rfl

/-- The inversion lemma of `exec`: a next state is the completion. -/
theorem exec_next {i : Instr} {s t : State} (h : exec i s = .next t) : t = s.complete (completionOf i s) := by
  rw [exec_eq] at h
  cases h
  rfl

@[simp] theorem State.complete_cursor_none (s : State) (c : Completion) (h : c.cursor = none) :
    (s.complete c).cursor = s.cursor := by simp [State.cursor, h]

/-- A completion that moves the cursor to a position the fields can hold leaves it there. -/
theorem State.complete_cursor_some (s : State) (c : Completion) (q : Nat) (h : c.cursor = some q) (hq : q < 2 ^ 35) :
    (s.complete c).cursor = q := by
  simp only [State.cursor, State.complete_brBytePos, State.complete_brBitPos, h, Option.map_some, Option.getD_some,
    BitVec.toNat_ofNat]
  omega

/-- An error writes STATUS and PENDING only (`60_exceptions.md` R183). -/
theorem State.fail_eq (s : State) (c : ErrCode) :
    s.fail c = { s with status := s.status.complete c, pending := none } := rfl

/-- The stream read of RDBIT and RDBITS where it fits the stream. -/
theorem State.readBits_ok (s : State) (n : Nat) (h : s.cursor + n ≤ s.streamBits) :
    s.readBits n = { code := .ok, results := resultWords (s.bsBits s.cursor n) 0 n, cursor := some (s.cursor + n) } := by
  rw [State.readBits, if_neg (by omega)]

theorem State.readBits_oob (s : State) (n : Nat) (h : s.streamBits < s.cursor + n) : s.readBits n = .error .bsOob := by
  rw [State.readBits, if_pos h]

theorem State.peekBits_ok (s : State) (n : Nat) (h : s.peekOff.toNat + n ≤ s.streamBits) :
    s.peekBits n = { code := .ok, results := resultWords (s.bsBits s.peekOff.toNat n) 0 0 } := by
  rw [State.peekBits, if_neg (by omega)]

theorem State.peekBits_oob (s : State) (n : Nat) (h : s.streamBits < s.peekOff.toNat + n) :
    s.peekBits n = .error .bsOob := by
  rw [State.peekBits, if_pos h]

/-- Only HPEL writes samples (`00_scope.md` R10). -/
theorem completionOf_samples (i : Instr) (s : State) (h : ∀ a b c d, i ≠ .hpel a b c d) :
    (completionOf i s).samples = [] := by
  cases i with
  | hpel a b c d => exact absurd rfl (h a b c d)
  | nop => rfl
  | rdbit => simp only [completionOf, State.readBits]; split <;> rfl
  | rdbits n => simp only [completionOf, State.readBits]; split <;> [rfl; split <;> rfl]
  | pkbits n => simp only [completionOf, State.peekBits]; split <;> [rfl; split <;> rfl]
  | encTz tz tc => rfl
  | decTz tc => simp only [completionOf, State.decodePair]; split <;> rfl
  | encRb rb zl => rfl
  | decRb zl => simp only [completionOf, State.decodePair]; split <;> rfl
  | dec1 => rfl
  | ssd p q => simp only [completionOf, State.ssdCompletion]; split <;> rfl
  | ssdb p q => simp only [completionOf, State.ssdbCompletion]; split <;> rfl

end Sys2Proof.Machine
end

