-- ==== Sys2Proof/Laws/PerInstr.lean ====
section
/-! SUPPORT. What holds of every command as syntax, constructor by constructor. `RowMatch`: the word of a well-formed command is
a word of its own row of the opcode map (`30_encoding.md` R81, R87), so it has no reserved bit set. -/

namespace Sys2Proof.Laws.RowMatch

/-- The row of the opcode map a command belongs to. -/
def rowOf : Instr → Nat
  | .nop => 0
  | .rdbit => 1
  | .rdbits _ => 2
  | .pkbits _ => 3
  | .encTz _ _ => 4
  | .decTz _ => 5
  | .encRb _ _ => 6
  | .decRb _ => 7
  | .dec1 => 8
  | .ssd _ _ => 9
  | .ssdb _ _ => 10
  | .hpel _ _ _ _ => 11

/-- The word of a well-formed command matches its row. -/
def Statement (i : Instr) : Prop :=
  i.wf = true → ∃ r, opTable[rowOf i]? = some r ∧ r.matchesWord (encode i) = true

/-- The same as a Bool, for the kernel to evaluate. -/
def check (i : Instr) : Bool := (opTable[rowOf i]?).any fun r => r.matchesWord (encode i)

theorem of_check {i : Instr} (h : i.wf = true → check i = true) : Statement i := fun hw =>
  (Option.any_eq_true _ _).1 (h hw)

theorem nop : Statement .nop := of_check fun _ => by decide
theorem rdbit : Statement .rdbit := of_check fun _ => by decide
theorem dec1 : Statement .dec1 := of_check fun _ => by decide

theorem rdbits (n : Nat) : Statement (.rdbits n) := of_check fun h => by
  have all : ∀ n : Fin 64, check (.rdbits n) = true := by decide
  exact all ⟨n, by simpa [Instr.wf, countOk] using h⟩

theorem pkbits (n : Nat) : Statement (.pkbits n) := of_check fun h => by
  have all : ∀ n : Fin 64, check (.pkbits n) = true := by decide
  exact all ⟨n, by simpa [Instr.wf, countOk] using h⟩

theorem encTz (tz tc : Nat) : Statement (.encTz tz tc) := of_check fun h => by
  have all : ∀ a b : Fin 16, check (.encTz a b) = true := by decide
  simp only [Instr.wf, symbolOk, Bool.and_eq_true, decide_eq_true_eq] at h
  exact all ⟨tz, h.1⟩ ⟨tc, h.2⟩

theorem decTz (tc : Nat) : Statement (.decTz tc) := of_check fun h => by
  have all : ∀ a : Fin 16, check (.decTz a) = true := by decide
  exact all ⟨tc, by simpa [Instr.wf, symbolOk] using h⟩

theorem encRb (rb zl : Nat) : Statement (.encRb rb zl) := of_check fun h => by
  have all : ∀ a b : Fin 16, check (.encRb a b) = true := by decide
  simp only [Instr.wf, symbolOk, Bool.and_eq_true, decide_eq_true_eq] at h
  exact all ⟨rb, h.1⟩ ⟨zl, h.2⟩

theorem decRb (zl : Nat) : Statement (.decRb zl) := of_check fun h => by
  have all : ∀ a : Fin 16, check (.decRb a) = true := by decide
  exact all ⟨zl, by simpa [Instr.wf, symbolOk] using h⟩

theorem ssd (p q : Nat) : Statement (.ssd p q) := of_check fun h => by
  have all : ∀ a b : Fin 4, check (.ssd a b) = true := by decide
  simp only [Instr.wf, overlayOk, Bool.and_eq_true, decide_eq_true_eq] at h
  exact all ⟨p, h.1⟩ ⟨q, h.2⟩

theorem ssdb (p q : Nat) : Statement (.ssdb p q) := of_check fun h => by
  have all : ∀ a b : Fin 4, check (.ssdb a b) = true := by decide
  simp only [Instr.wf, overlayOk, Bool.and_eq_true, decide_eq_true_eq] at h
  exact all ⟨p, h.1⟩ ⟨q, h.2⟩

theorem hpel (s d : Nat) (dx dy : ShiftCode) : Statement (.hpel s d dx dy) := of_check fun h => by
  have all (x y : ShiftCode) : ∀ a b : Fin 4, check (.hpel a b x y) = true := by cases x <;> cases y <;> decide
  simp only [Instr.wf, overlayOk, Bool.and_eq_true, decide_eq_true_eq] at h
  exact all dx dy ⟨s, h.1⟩ ⟨d, h.2⟩

end Sys2Proof.Laws.RowMatch
end

