-- ==== Sys2Proof/Laws/Pixel.lean ====
section
/-! SUPPORT. The laws of windows (`20_memory.md` R66 to R68, `42_pixel.md` R150 to R157). -/

namespace Sys2Proof.Machine

theorem mem_raster (w h : Nat) (ji : Nat × Nat) : ji ∈ raster w h ↔ ji.1 < w ∧ ji.2 < h := by
  obtain ⟨j, i⟩ := ji
  simp [raster, and_comm]

theorem length_raster (w h : Nat) : (raster w h).length = w * h := by
  simp [raster, List.length_flatMap, Nat.mul_comm]

/-- A difference of two 8-bit samples squares to at most 255^2 (R157). -/
theorem sqDiff_le (a b : Nat) (ha : a < 256) (hb : b < 256) : sqDiff a b ≤ 65025 := by
  have h1 : ((a : Int) - b) ≤ 255 := by omega
  have h2 : -255 ≤ ((a : Int) - b) := by omega
  have : ((a : Int) - b) * ((a : Int) - b) ≤ 65025 := by nlinarith
  unfold sqDiff
  omega

theorem sqDiff_comm (a b : Nat) : sqDiff a b = sqDiff b a := by
  unfold sqDiff
  congr 1
  ring

theorem sqDiff_eq_zero (a b : Nat) : sqDiff a b = 0 ↔ a = b := by
  constructor
  · intro h
    have hle : ((a : Int) - b) * ((a : Int) - b) ≤ 0 := Int.toNat_eq_zero.1 h
    have : ((a : Int) - b) * ((a : Int) - b) = 0 := le_antisymm hle (mul_self_nonneg _)
    have := mul_self_eq_zero.1 this
    omega
  · rintro rfl
    simp [sqDiff]

theorem State.pix_lt (s : State) (o : Overlay) (c r : Int) : s.pix o c r < 256 := (s.pixSample _).isLt

theorem State.windowDiffs_le (s : State) (p q : Overlay) : ∀ d ∈ s.windowDiffs p q, d ≤ 65025 := by
  intro d hd
  simp only [State.windowDiffs, List.mem_map] at hd
  obtain ⟨ji, -, rfl⟩ := hd
  exact sqDiff_le _ _ (s.pix_lt _ _ _) (s.pix_lt _ _ _)

theorem State.length_windowDiffs (s : State) (p q : Overlay) : (s.windowDiffs p q).length = p.w * p.h := by
  simp [State.windowDiffs, length_raster]

theorem sum_le_of_forall_le (l : List Nat) (b : Nat) (h : ∀ d ∈ l, d ≤ b) : l.sum ≤ l.length * b := by
  induction l with
  | nil => simp
  | cons d l ih =>
    have hd := h d (by simp)
    have hl := ih (fun x hx => h x (by simp [hx]))
    simp only [List.sum_cons, List.length_cons, Nat.succ_mul]
    omega

/-- What SSDB's loop can answer: the sum of a first part of the differences, short of the limit before its last one, and
either all of them without reaching it or the first part that reaches it. -/
theorem boundedSum_spec (lim : Nat) (ds : List Nat) (acc k : Nat) :
    ∃ n, n ≤ ds.length ∧ boundedSum lim ds acc k = (acc + (ds.take n).sum, k + n) ∧
      (∀ m, 0 < m → m < n → acc + (ds.take m).sum < lim) ∧
      (n < ds.length → 0 < n ∧ lim ≤ acc + (ds.take n).sum) := by
  induction ds generalizing acc k with
  | nil => exact ⟨0, by simp [boundedSum]⟩
  | cons d ds ih =>
    rw [boundedSum]
    split
    · rename_i hlim
      exact ⟨1, by simp, by simp, by intro m h1 h2; omega, fun _ => by simpa using hlim⟩
    · rename_i hlim
      obtain ⟨n, hn, he, hlt, hend⟩ := ih (acc + d) (k + 1)
      refine ⟨n + 1, by simpa using hn, ?_, ?_, ?_⟩
      · rw [he]
        simp only [List.take_succ_cons, List.sum_cons, Prod.mk.injEq]
        omega
      · intro m hm0 hmn
        cases m with
        | zero => omega
        | succ m =>
          simp only [List.take_succ_cons, List.sum_cons]
          cases m with
          | zero => simpa using hlim
          | succ m =>
            have := hlt (m + 1) (by omega) (by omega)
            omega
      · intro hlen
        simp only [List.length_cons, Nat.add_lt_add_iff_right] at hlen
        refine ⟨by omega, ?_⟩
        have := (hend hlen).2
        simp only [List.take_succ_cons, List.sum_cons]
        omega

/-- What the window check gives (R68): every sample of the window has its column and row inside the parent and its address
inside PIXMEM. -/
theorem Overlay.winOk_inside (o : Overlay) (size : Nat) (x y : Int) (h : o.winOk size x y = true) (j i : Nat)
    (hj : j < o.w) (hi : i < o.h) :
    0 ≤ x + j ∧ x + j < o.pw ∧ 0 ≤ y + i ∧ y + i < o.ph ∧
      0 ≤ o.pixAddr (x + j) (y + i) ∧ o.pixAddr (x + j) (y + i) < size := by
  simp only [Overlay.winOk, Bool.and_eq_true, decide_eq_true_eq] at h
  obtain ⟨⟨⟨⟨hx, hy⟩, hxw⟩, hyh⟩, haddr⟩ := h
  have hrow : (y + i) * (o.pw : Int) ≤ (y + o.h - 1) * o.pw :=
    mul_le_mul_of_nonneg_right (by omega) (by omega)
  have hpos : 0 ≤ (y + i) * (o.pw : Int) := mul_nonneg (by omega) (by omega)
  simp only [Overlay.pixAddr] at haddr ⊢
  refine ⟨by omega, by omega, by omega, by omega, by omega, by omega⟩

/-- Two different samples of one window have different addresses. -/
theorem Overlay.pixAddr_inj (o : Overlay) (x y : Int) (hx : 0 ≤ x) (hw : x + o.w ≤ o.pw) (j i j' i' : Nat)
    (hj : j < o.w) (hj' : j' < o.w) (h : o.pixAddr (x + j) (y + i) = o.pixAddr (x + j') (y + i')) : j = j' ∧ i = i' := by
  simp only [Overlay.pixAddr] at h
  have hrow : i = i' := by
    by_contra hne
    rcases Nat.lt_or_gt_of_ne hne with hlt | hlt
    · have : (y + i) * (o.pw : Int) + o.pw ≤ (y + i') * o.pw := by nlinarith
      omega
    · have : (y + i') * (o.pw : Int) + o.pw ≤ (y + i) * o.pw := by nlinarith
      omega
  subst hrow
  omega

/-- The checks two windows share, told apart (`60_exceptions.md` R182). -/
theorem windowChecks_eq_none (p q : Overlay) (placed : Bool) :
    windowChecks p q placed = none ↔
      p.sizeOk = true ∧ q.sizeOk = true ∧ p.w = q.w ∧ p.h = q.h ∧ placed = true := by
  unfold windowChecks
  split
  · rename_i h
    simp only [Bool.not_eq_true', Bool.and_eq_false_iff] at h
    rcases h with h | h <;> simp [h]
  · rename_i h
    simp only [Bool.not_eq_true', Bool.and_eq_false_iff, not_or, Bool.not_eq_false] at h
    split
    · rename_i hd
      simp only [reduceCtorEq, false_iff]
      rintro ⟨-, -, h1, h2, -⟩
      rcases hd with hd | hd <;> contradiction
    · rename_i hd
      push Not at hd
      cases placed <;> simp [h, hd]

end Sys2Proof.Machine
end

