-- ==== Sys2Proof/Laws/Step.lean ====
section
/-! SUPPORT. The inversion lemma of `step`: everything one step can do. -/

namespace Sys2Proof.Machine

/-- What the block completes a word with: the completion of its command, or ILLEGAL_CMD. -/
def wordCompletion (w : Word) (s : State) : Completion :=
  match decode w with
  | .ok i => completionOf i s
  | .error _ => .error .illegalCmd

/-- Running a word is its completion. -/
theorem runWord_eq (w : Word) (s : State) : runWord w s = .next (s.complete (wordCompletion w s)) := by
  unfold runWord wordCompletion
  cases decode w with
  | ok i => exact exec_eq i s
  | error _ => rfl

/-- Everything the block's step can do. -/
theorem blockStep_next {s t : State} (h : blockStep s = .next t) :
    s.status.busy = true ∧ ∃ w, s.pending = some w ∧ t = s.complete (wordCompletion w s) := by
  unfold blockStep at h
  split at h
  · rename_i w hb hp
    rw [runWord_eq] at h
    cases h
    exact ⟨hb, w, hp, rfl⟩
  · cases h

/-- The ways a step can go. -/
inductive Moved (s : State) : State → Prop where
  /-- The block completes PENDING, on the state with `rest` still to come. -/
  | block (rest : List Input) (w : Word) (hb : s.status.busy = true) (hp : s.pending = some w) :
      Moved s (State.complete { s with inputs := rest } (wordCompletion w { s with inputs := rest }))
  /-- A host read, or the last poll of a WAIT. -/
  | read (rest : List Input) (v : Word) : Moved s { s with inputs := rest, lastRead := some v }
  /-- A host write that changes nothing. -/
  | ignored (rest : List Input) : Moved s { s with inputs := rest }
  /-- A host write to a CSR. -/
  | csr (rest : List Input) (r : Csr) (v : Word) : Moved s (State.csrWriteAt { s with inputs := rest } r v)
  /-- A host write of one byte of BSMEM. -/
  | bsmem (rest : List Input) (i : Nat) (b : Byte) (hi : i < s.params.bsSize) (hb : s.status.busy = false) :
      Moved s { s with inputs := rest, bsmem := s.bsmem.write i b }
  /-- A host write of one sample of PIXMEM. -/
  | pixmem (rest : List Input) (i : Nat) (b : Byte) (hi : i < s.params.pixSize) (hb : s.status.busy = false) :
      Moved s { s with inputs := rest, pixmem := s.pixmem.write i b }
  /-- Reset. -/
  | reset (rest : List Input) : Moved s (State.applyReset { s with inputs := rest })

/-- A launch that stops nothing is a good one. -/
theorem launchStop_eq_none (s : State) : launchStop s = none ↔ s.launchOk := by
  unfold launchStop State.launchOk
  cases s.params.inRange <;> cases s.tzTable.wfTz <;> cases s.rbTable.wf <;> simp

theorem schedule_next {s t : State} (h : schedule s = .next t) : Moved s t := by
  unfold schedule at h
  split at h
  · rename_i hi
    obtain ⟨hb, w, hp, rfl⟩ := blockStep_next h
    have := Moved.block (s := s) s.inputs w hb hp
    exact this
  · obtain ⟨v, rfl⟩ := hostRead_next h
    exact .read _ v
  · rcases hostWrite_next h with rfl | ⟨r, rfl⟩ | ⟨i, ht, hb, rfl⟩ | ⟨i, ht, hb, rfl⟩
    · exact .ignored _
    · exact .csr _ r _
    · exact .bsmem _ i _ (busTarget_index.1 ht) hb
    · exact .pixmem _ i _ (busTarget_index.2 ht) hb
  · unfold waitStep at h
    split at h
    · obtain ⟨hb, w, hp, rfl⟩ := blockStep_next h
      exact Moved.block (s := s) s.inputs w hb hp
    · cases h
      exact .read _ _
  · obtain ⟨hb, w, hp, rfl⟩ := blockStep_next h
    exact .block _ w hb hp
  · cases h
    exact .reset _

/-- The inversion lemma of `step`: a next state comes from a good launch, by one of the moves. -/
theorem step_next {s t : State} (h : step s = .next t) : s.launchOk ∧ Moved s t := by
  unfold step at h
  cases hl : launchStop s with
  | some o =>
    rw [hl] at h
    unfold launchStop at hl
    split at hl
    · cases hl
      cases h
    · split at hl
      · cases hl
        cases h
      · cases hl
  | none =>
    rw [hl] at h
    exact ⟨(launchStop_eq_none s).1 hl, schedule_next h⟩

/-- From a good launch the step is the schedule's. -/
theorem step_of_launchOk {s : State} (h : s.launchOk) : step s = schedule s := by
  unfold step
  rw [(launchStop_eq_none s).2 h]

end Sys2Proof.Machine
end

