-- ==== Sys2Proof/Laws/Vlc.lean ====
section
/-! SUPPORT. What the table matching of the VLC decoder (`41_vlc.md` R125) finds, and what a well-formed table (R121) says of
two of its codes. -/

namespace Sys2Proof.Machine

theorem VlcTable.mem_candidates (t : VlcTable) (ctx len sym : Nat) :
    sym ∈ t.candidates ctx len ↔ sym < 16 ∧ (t.entry sym ctx).numBits = len := by
  simp [VlcTable.candidates]

theorem VlcTable.candidates_isEmpty (t : VlcTable) (ctx len : Nat) :
    (t.candidates ctx len).isEmpty = true ↔ ∀ sym < 16, (t.entry sym ctx).numBits ≠ len := by
  rw [List.isEmpty_iff, List.eq_nil_iff_forall_not_mem]
  simp only [VlcTable.mem_candidates, not_and]

/-- No code of one length matches at the cursor. -/
def State.noMatchAt (s : State) (t : VlcTable) (ctx len : Nat) : Prop :=
  ∀ sym < 16, (t.entry sym ctx).numBits = len → (t.entry sym ctx).codeWord.toNat ≠ s.bsBits s.cursor len

/-- Everything the matching can answer when it succeeds: a symbol of the column, the length of its code, one of those tried,
the code at the cursor inside the stream, and no shorter code of the column there. -/
theorem State.vlcMatch_ok (s : State) (t : VlcTable) (ctx : Nat) (lens : List Nat) (sym len : Nat)
    (h : s.vlcMatch t ctx lens = .ok (sym, len)) :
    sym < 16 ∧ (t.entry sym ctx).numBits = len ∧ len ∈ lens ∧ s.cursor + len ≤ s.streamBits ∧
      (t.entry sym ctx).codeWord.toNat = s.bsBits s.cursor len := by
  induction lens with
  | nil => simp [State.vlcMatch] at h
  | cons l lens ih =>
    rw [State.vlcMatch] at h
    split at h
    · obtain ⟨h1, h2, h3, h4, h5⟩ := ih h
      exact ⟨h1, h2, by simp [h3], h4, h5⟩
    · split at h
      · cases h
      · split at h
        · rename_i hoob _ sym' hfind
          cases h
          have hm := List.mem_of_find?_eq_some hfind
          have hp := List.find?_some hfind
          rw [VlcTable.mem_candidates] at hm
          exact ⟨hm.1, hm.2, by simp, by omega, by simpa using hp⟩
        · obtain ⟨h1, h2, h3, h4, h5⟩ := ih h
          exact ⟨h1, h2, by simp [h3], h4, h5⟩

/-- The matching passes over lengths none of whose codes match. -/
theorem State.vlcMatch_skip (s : State) (t : VlcTable) (ctx : Nat) (before after : List Nat)
    (hfit : ∀ l ∈ before, (∃ sym < 16, (t.entry sym ctx).numBits = l) → s.cursor + l ≤ s.streamBits)
    (hno : ∀ l ∈ before, s.noMatchAt t ctx l) :
    s.vlcMatch t ctx (before ++ after) = s.vlcMatch t ctx after := by
  induction before with
  | nil => rfl
  | cons l before ih =>
    have hrest := ih (fun x hx => hfit x (by simp [hx])) (fun x hx => hno x (by simp [hx]))
    rw [List.cons_append, State.vlcMatch]
    split
    · exact hrest
    · rename_i hne
      have hex : ∃ sym < 16, (t.entry sym ctx).numBits = l := by
        by_contra hcon
        exact hne ((t.candidates_isEmpty ctx l).2 (fun sym hs he => hcon ⟨sym, hs, he⟩))
      rw [if_neg (by have := hfit l (by simp) hex; omega)]
      split
      · rename_i sym hfind
        have hm := (t.mem_candidates ctx l sym).1 (List.mem_of_find?_eq_some hfind)
        have hp := List.find?_some hfind
        exact absurd (by simpa using hp) (hno l (by simp) sym hm.1 hm.2)
      · exact hrest

/-- The matching of one length where exactly one symbol's code matches. -/
theorem State.vlcMatch_hit (s : State) (t : VlcTable) (ctx len sym : Nat) (after : List Nat) (hs : sym < 16)
    (hlen : (t.entry sym ctx).numBits = len) (hfit : s.cursor + len ≤ s.streamBits)
    (hcode : (t.entry sym ctx).codeWord.toNat = s.bsBits s.cursor len)
    (huniq : ∀ x < 16, (t.entry x ctx).numBits = len → (t.entry x ctx).codeWord.toNat = s.bsBits s.cursor len → x = sym) :
    s.vlcMatch t ctx (len :: after) = .ok (sym, len) := by
  have hmem := (t.mem_candidates ctx len sym).2 ⟨hs, hlen⟩
  rw [State.vlcMatch, if_neg (by
      rw [List.isEmpty_iff]
      intro hnil
      simp [hnil] at hmem),
    if_neg (by omega)]
  split
  · rename_i x hfind
    have hm := (t.mem_candidates ctx len x).1 (List.mem_of_find?_eq_some hfind)
    have hp := List.find?_some hfind
    rw [huniq x hm.1 hm.2 (by simpa using hp)]
  · rename_i hfind
    have := List.find?_eq_none.1 hfind sym hmem
    simp [hcode] at this

/-- The code lengths are 1 to 16 in order. -/
theorem mem_codeLengths (len : Nat) : len ∈ codeLengths ↔ 1 ≤ len ∧ len ≤ 16 := by
  simp only [codeLengths, List.mem_cons, List.not_mem_nil, or_false]
  omega

/-- Splitting the lengths at one of them: the ones before it are shorter. -/
theorem codeLengths_split (len : Nat) (h : 1 ≤ len ∧ len ≤ 16) :
    ∃ before after, codeLengths = before ++ len :: after ∧ ∀ l ∈ before, 1 ≤ l ∧ l < len := by
  refine ⟨codeLengths.take (len - 1), codeLengths.drop len, ?_, ?_⟩
  · obtain ⟨h1, h2⟩ := h
    interval_cases len <;> rfl
  · obtain ⟨h1, h2⟩ := h
    interval_cases len <;> decide

theorem VlcTable.entry_eq (t : VlcTable) (s ctx : Nat) (hs : s < 16) (hc : ctx < 16) :
    t.entry s ctx = (t.columns[ctx])[s] := by
  simp [VlcTable.entry, hs, hc]

theorem VlcTable.entry_ctx_out (t : VlcTable) (s ctx : Nat) (hc : 16 ≤ ctx) : t.entry s ctx = .invalid := by
  simp [VlcTable.entry, hc]

/-- A list whose reachable entries are prefix free: two reachable entries at different places are free of each other. -/
theorem prefixFree_filter_getElem (es : List VlcEntry) (h : prefixFree (es.filter VlcEntry.reachable) = true)
    (i j : Nat) (hi : i < es.length) (hj : j < es.length) (hij : i ≠ j) (hni : es[i].numBits ≠ 0)
    (hnj : es[j].numBits ≠ 0) : es[i].notPrefixOf es[j] = true := by
  induction es generalizing i j with
  | nil => simp at hi
  | cons a es ih =>
    cases i with
    | zero =>
      cases j with
      | zero => exact absurd rfl hij
      | succ j =>
        have ha : a.reachable = true := by simpa [VlcEntry.reachable] using hni
        rw [List.filter_cons_of_pos ha] at h
        simp only [prefixFree, Bool.and_eq_true, VlcEntry.freeOf, List.all_eq_true] at h
        exact (h.1 (es[j]'(by simpa using hj)) (List.mem_filter.2 ⟨List.getElem_mem _, by simpa [VlcEntry.reachable] using hnj⟩)).1
    | succ i =>
      cases j with
      | zero =>
        have ha : a.reachable = true := by simpa [VlcEntry.reachable] using hnj
        rw [List.filter_cons_of_pos ha] at h
        simp only [prefixFree, Bool.and_eq_true, VlcEntry.freeOf, List.all_eq_true] at h
        exact (h.1 (es[i]'(by simpa using hi)) (List.mem_filter.2 ⟨List.getElem_mem _, by simpa [VlcEntry.reachable] using hni⟩)).2
      | succ j =>
        have hrest : prefixFree (es.filter VlcEntry.reachable) = true := by
          by_cases ha : a.reachable = true
          · rw [List.filter_cons_of_pos ha] at h
            simp only [prefixFree, Bool.and_eq_true] at h
            exact h.2
          · rwa [List.filter_cons_of_neg ha] at h
        exact ih hrest i j (by simpa using hi) (by simpa using hj) (by omega) (by simpa using hni) (by simpa using hnj)

/-- R121 condition 3, read off a well-formed table: "no code of a column is a prefix of another". -/
theorem VlcTable.wf_prefix (t : VlcTable) (h : t.wf = true) (s u ctx : Nat) (hs : s < 16) (hu : u < 16) (hc : ctx < 16)
    (hsu : s ≠ u) (hns : 0 < (t.entry s ctx).numBits) (hle : (t.entry s ctx).numBits ≤ (t.entry u ctx).numBits) :
    (t.entry u ctx).codeWord.toNat % 2 ^ (t.entry s ctx).numBits ≠ (t.entry s ctx).codeWord.toNat := by
  rw [t.entry_eq s ctx hs hc] at hns hle ⊢
  rw [t.entry_eq u ctx hu hc] at hle ⊢
  simp only [VlcTable.wf, List.all_eq_true, Bool.and_eq_true] at h
  have hcol := (h t.columns[ctx] (by simp)).2
  have hfree := prefixFree_filter_getElem _ hcol s u (by simpa using hs) (by simpa using hu) hsu
    (by simp only [Vector.getElem_toList]; omega) (by simp only [Vector.getElem_toList]; omega)
  simp only [Vector.getElem_toList, VlcEntry.notPrefixOf, Bool.or_eq_true, beq_iff_eq, decide_eq_true_eq, bne_iff_ne] at hfree
  rcases hfree with (h0 | h0) | h0
  · omega
  · omega
  · exact h0

/-- R121 conditions 1 and 2, read off a well-formed table. -/
theorem VlcTable.wf_entry (t : VlcTable) (h : t.wf = true) (s ctx : Nat) :
    (t.entry s ctx).numBits ≤ 16 ∧ (t.entry s ctx).codeWord.toNat < 2 ^ (t.entry s ctx).numBits ∧
      ((t.entry s ctx).numBits = 0 → (t.entry s ctx).codeWord = 0) := by
  by_cases hc : ctx < 16
  · by_cases hs : s < 16
    · rw [t.entry_eq s ctx hs hc]
      simp only [VlcTable.wf, List.all_eq_true, Bool.and_eq_true] at h
      have := (h t.columns[ctx] (by simp)).1 (t.columns[ctx])[s] (by simp)
      simp only [VlcEntry.ok, Bool.and_eq_true, decide_eq_true_eq, Bool.or_eq_true, bne_iff_ne, beq_iff_eq] at this
      exact ⟨this.1.1, this.1.2, fun h0 => this.2.resolve_left (by simp [h0])⟩
    · have : t.entry s ctx = .invalid := by simp [VlcTable.entry, hc, hs]
      simp [this, VlcEntry.invalid]
  · simp [t.entry_ctx_out s ctx (by omega), VlcEntry.invalid]

end Sys2Proof.Machine
end

