-- ==== Sys2Proof/Tests/Slice0.lean ====
section
/-! SUPPORT. The model's own tests: ill-formed terms that `Instr.wf` refuses, words written out from the spec's encodings, one
step at a time from the fixtures of `95_test_vectors.md`, and for every obligation with hypotheses a state and operands that
meet them. -/

namespace Sys2Proof.Tests

open Sys2Proof.Machine Sys2Proof.Claims

/-! ## Well-formedness: each check refuses a term that breaks it and accepts the largest that does not (`30_encoding.md` R82) -/

theorem test_wf_count : (Instr.rdbits 64).wf = false ∧ (Instr.pkbits 64).wf = false ∧ (Instr.rdbits 63).wf = true := by decide
theorem test_wf_symbol : (Instr.encTz 16 0).wf = false ∧ (Instr.encTz 0 16).wf = false ∧ (Instr.decTz 16).wf = false ∧
    (Instr.encRb 16 0).wf = false ∧ (Instr.encRb 0 16).wf = false ∧ (Instr.decRb 16).wf = false ∧
    (Instr.encRb 15 15).wf = true := by decide
theorem test_wf_overlay : (Instr.ssd 4 0).wf = false ∧ (Instr.ssd 0 4).wf = false ∧ (Instr.ssdb 4 0).wf = false ∧
    (Instr.ssdb 0 4).wf = false ∧ (Instr.hpel 4 0 .zero .zero).wf = false ∧ (Instr.hpel 0 4 .zero .zero).wf = false ∧
    (Instr.hpel 3 3 .invalid .minusOne).wf = true := by decide

/-! ## Words written out bit by bit, C then B then A then OP (`30_encoding.md` R80, R81) -/

theorem test_decode_nop : decode 0b00000000_00000000_00000000_00000000 = .ok .nop := by decide
theorem test_decode_rdbit : decode 0b00000000_00000000_00000000_00000001 = .ok .rdbit := by decide
theorem test_decode_rdbits : decode 0b00000000_00000000_00101101_00000010 = .ok (.rdbits 45) := by decide
theorem test_decode_pkbits : decode 0b00000000_00000000_00010011_00000011 = .ok (.pkbits 19) := by decide
theorem test_decode_encTz : decode 0b00000000_00000110_00001011_00010000 = .ok (.encTz 11 6) := by decide
theorem test_decode_decTz : decode 0b00000000_00001101_00000000_00010001 = .ok (.decTz 13) := by decide
theorem test_decode_encRb : decode 0b00000000_00001010_00000101_00010010 = .ok (.encRb 5 10) := by decide
theorem test_decode_decRb : decode 0b00000000_00001001_00000000_00010011 = .ok (.decRb 9) := by decide
theorem test_decode_dec1 : decode 0b00000000_00000000_00000000_00010100 = .ok .dec1 := by decide
theorem test_decode_ssd : decode 0b00000000_00000001_00000010_00100000 = .ok (.ssd 2 1) := by decide
theorem test_decode_ssdb : decode 0b00000000_00000011_00000001_00100001 = .ok (.ssdb 1 3) := by decide
theorem test_decode_hpel : decode 0b00000111_00000010_00000001_00100010 = .ok (.hpel 1 2 .minusOne .plusOne) := by decide

/-- V-ENC-01: the nine shift pairs, as C of HPEL 0, 0. -/
theorem test_decode_shift_pairs : ([(0x0, .zero, .zero), (0x1, .plusOne, .zero), (0x3, .minusOne, .zero), (0x4, .zero, .plusOne),
    (0x5, .plusOne, .plusOne), (0x7, .minusOne, .plusOne), (0xC, .zero, .minusOne), (0xD, .plusOne, .minusOne),
    (0xF, .minusOne, .minusOne)] : List (Nat × ShiftCode × ShiftCode)).all
      (fun x => decide (decode (BitVec.ofNat 32 (x.1 * 2 ^ 24 + 0x22)) = .ok (.hpel 0 0 x.2.1 x.2.2))) = true := by decide

/-- V-ENC-03 to V-ENC-06, V-ENC-08 to V-ENC-10, V-ENC-12, V-ENC-13. -/
theorem test_decode_illegal : decode 0x00000004 = .error .unassignedOpcode ∧ decode 0x000000FF = .error .unassignedOpcode ∧
    decode 0x00000101 = .error .reservedBitSet ∧ decode 0x00004002 = .error .reservedBitSet ∧
    decode 0x00011010 = .error .reservedBitSet ∧ decode 0x00010111 = .error .reservedBitSet ∧
    decode 0x00040020 = .error .reservedBitSet ∧ decode 0x10020122 = .error .reservedBitSet ∧
    decode 0x01000014 = .error .reservedBitSet := by decide

theorem test_decodeTableWord : decodeTableWord 32 0x0F020022 = some (.hpel 0 2 .minusOne .minusOne) ∧
    decodeTableWord 32 0x00000004 = none := by decide

/-! ## The fixtures of `95_test_vectors.md` -/

/-- Stream S5 with the cursor at (byte, bit). -/
def s5 (byte bit : Nat) : State :=
  { State.reset with
    bsmem := [(0, 0xB5), (1, 0x3C), (2, 0xFF), (3, 0x00), (4, 0x81)], bsLen := 5
    brBytePos := BitVec.ofNat 32 byte, brBitPos := BitVec.ofNat 3 bit }

/-- A stream of one or two bytes, the cursor at 0. -/
def short (m : Memory) : State := { State.reset with bsmem := m, bsLen := BitVec.ofNat 32 m.length }

/-- The samples of P32. -/
def p32Samples : Memory :=
  [(0, 10), (1, 20), (2, 30), (3, 40), (4, 50), (5, 60), (6, 70), (7, 80), (8, 90), (9, 100), (10, 110), (11, 120)] ++
  [(12, 11), (13, 18), (14, 33), (15, 40), (16, 50), (17, 64), (18, 70), (19, 75), (20, 0), (21, 255), (22, 110), (23, 121)] ++
  [(24, 0), (25, 0), (26, 0), (27, 0), (28, 0), (29, 0), (30, 0), (31, 0)]

/-- The descriptor OV0 or OV1 of P32, with its window at (x, y). -/
def big (base x y : Nat) : Overlay :=
  { base := BitVec.ofNat 32 base, pdim := 0x00030004, org := BitVec.ofNat 32 (y * 2 ^ 16 + x), size := 0x00020002 }

/-- Pixels P32 with these four descriptors. -/
def p32With (a b c d : Overlay) : State := { State.reset with pixmem := p32Samples, overlays := #v[a, b, c, d] }

/-- OV2 of P32. -/
def ov2 : Overlay := { base := 24, pdim := 0x00020002, org := 0, size := 0x00020002 }

/-- Pixels P32 with OV0 and OV1 at these origins. -/
def p32 (x0 y0 x1 y1 : Nat) : State := p32With (big 0 x0 y0) (big 12 x1 y1) ov2 .zero

/-- Pixels P32 with a limit for SSDB. -/
def p32Limit (lim : Word) : State := { p32 0 0 0 0 with ssdLimit := lim }

/-- What a test looks at after a step: RESULT0 to RESULT2, the cursor and STATUS. -/
def seen (o : Host.Outcome State Fault Refusal) : Option (Nat × Nat × Nat × Nat × Nat) :=
  match o with
  | .next t => some (t.result0.toNat, t.result1.toNat, t.result2.toNat, t.cursor, t.status.word.toNat)
  | _ => none

/-- The samples at `l` after a step, and STATUS. -/
def samplesSeen (l : List Nat) (o : Host.Outcome State Fault Refusal) : Option (List Nat × Nat) :=
  match o with
  | .next t => some (l.map fun a => (t.pixSample a).toNat, t.status.word.toNat)
  | _ => none

/-- Issue a word in an idle state and take the completion step. -/
def run (w : Nat) (s : State) : Host.Outcome State Fault Refusal := step (s.withFetchWord 32 w)

/-! ## One step of each command -/

/-- V-ST-02. -/
theorem test_nop : seen (run 0x00000000 State.reset) = some (0, 0, 0, 0, 0x02) := by decide
/-- V-ENC-03. -/
theorem test_illegal : seen (run 0x00000004 State.reset) = some (0, 0, 0, 0, 0x86) := by decide
/-- V-BR-04: the cursor crosses into the next byte. -/
theorem test_rdbit_crosses : seen (run 0x00000001 (s5 0 7)) = some (1, 0, 1, 8, 0x02) := by decide
/-- V-ST-03, V-BR-11. -/
theorem test_rdbit_oob : seen (run 0x00000001 (s5 5 0)) = some (0, 0, 0, 40, 0x16) := by decide
/-- V-BR-06. -/
theorem test_rdbits_full_width : seen (run 0x00002002 (s5 0 3)) = some (0x201FE796, 0, 32, 35, 0x02) := by decide
/-- V-BR-08 with V-BR-09: three bits up to the end, and one past it. -/
theorem test_rdbits_end : seen (run 0x00000302 (s5 4 5)) = some (4, 0, 3, 40, 0x02) ∧
    seen (run 0x00000302 (s5 4 6)) = some (0, 0, 0, 38, 0x16) := by decide
/-- V-BR-20, V-BR-22: the peek offset, not the cursor. -/
theorem test_pkbits : seen (run 0x00000803 { s5 2 0 with peekOff := 6 }) = some (242, 0, 0, 16, 0x02) ∧
    seen (run 0x00002003 { s5 2 0 with peekOff := 8 }) = some (0x8100FF3C, 0, 0, 16, 0x02) := by decide
/-- V-BR-27, V-BR-28: no wrap, and BAD_PARAM first. -/
theorem test_pkbits_errors : seen (run 0x00000103 { s5 2 0 with peekOff := 0xFFFFFFFF }) = some (0, 0, 0, 16, 0x16) ∧
    seen (run 0x00002803 { s5 2 0 with peekOff := 0xFFFFFFFF }) = some (0, 0, 0, 16, 0x76) := by decide
/-- V-VLC-03. -/
theorem test_encTz : seen (run 0x00020510 State.reset) = some (0xA, 4, 0, 0, 0x02) := by decide
/-- V-VLC-04, from results that were not zero. -/
theorem test_encTz_invalid : seen (run 0x00020F10 { State.reset with result0 := 7, result1 := 7, result2 := 7 }) =
    some (0, 0, 0, 0, 0x36) := by decide
/-- V-VLC-22. -/
theorem test_decTz_longest : seen (run 0x00010011 (short [(0, 0x00), (1, 0x01)])) = some (15, 1, 9, 9, 0x02) := by decide
/-- V-VLC-28 and V-VLC-29: no match, and the stream too short for the next length. -/
theorem test_decTz_errors : seen (run 0x00010011 (short [(0, 0x00), (1, 0x00)])) = some (0, 0, 0, 0, 0x26) ∧
    seen (run 0x00010011 (short [(0, 0x00)])) = some (0, 0, 0, 0, 0x16) := by decide
/-- V-VLC-08. -/
theorem test_encRb : seen (run 0x000F0E12 State.reset) = some (0x400, 11, 0, 0, 0x02) := by decide
/-- V-VLC-06. -/
theorem test_encRb_invalid : seen (run 0x00000012 State.reset) = some (0, 0, 0, 0, 0x36) := by decide
/-- V-VLC-24. -/
theorem test_decRb : seen (run 0x00030013 (short [(0, 0x01)])) = some (1, 3, 2, 2, 0x02) := by decide
/-- V-VLC-2B: an empty column reads nothing. -/
theorem test_decRb_empty_column : seen (run 0x00000013 State.reset) = some (0, 0, 0, 0, 0x26) := by decide
/-- V-ST-15, with a sentinel the test chooses. -/
theorem test_dec1 : seen (run 0x00000014 { State.reset with params := { Config.params with dec1Sentinel := 0xABCD } }) =
    some (0xABCD, 0, 0, 0, 0x46) := by decide
/-- V-PX-01. -/
theorem test_ssd : seen (run 0x00010020 (p32 0 0 0 0)) = some (21, 0, 4, 0, 0x02) := by decide
/-- V-PX-07, V-PX-09b: placement, and the size check before it. -/
theorem test_ssd_errors : seen (run 0x00010020 (p32 0 0 3 0)) = some (0, 0, 0, 0, 0x56) ∧
    seen (run 0x00010020 (p32With { big 0 0 0 with size := 0 } (big 12 3 0) ov2 .zero)) = some (0, 0, 0, 0, 0x76) := by decide
/-- V-PX-10, V-PX-12: the limit reached early, and at the last sample. -/
theorem test_ssdb : seen (run 0x00010021 (p32Limit 5)) = some (5, 1, 2, 0, 0x02) ∧
    seen (run 0x00010021 (p32Limit 21)) = some (21, 1, 4, 0, 0x02) := by decide
/-- V-PX-11, V-PX-13. -/
theorem test_ssdb_extremes : seen (run 0x00010021 (p32Limit 22)) = some (21, 0, 4, 0, 0x02) ∧
    seen (run 0x00010021 (p32Limit 0)) = some (1, 1, 1, 0, 0x02) := by decide
/-- V-PX-23, under both roundings. -/
theorem test_hpel : samplesSeen [24, 25, 26, 27] (run 0x07020122 (p32 0 0 1 0)) = some ([34, 49, 32, 163], 0x02) ∧
    samplesSeen [24, 25, 26, 27] (run 0x07020122 { p32 0 0 1 0 with params := { Config.params with hpelRound := .down } }) =
      some ([34, 48, 32, 162], 0x02) := by decide
/-- V-PX-28 (the destination is the source) and V-PX-25 (the shifted window leaves the parent). -/
theorem test_hpel_overlap : samplesSeen [0, 1, 2, 3, 4, 5, 6, 7] (run 0x01000022 (p32 0 0 0 0)) =
      some ([15, 25, 30, 40, 55, 65, 70, 80], 0x02) ∧
    samplesSeen [24, 25, 26, 27] (run 0x03020022 (p32 0 0 0 0)) = some ([0, 0, 0, 0], 0x56) := by decide

/-! ## Host accesses -/

/-- The host's value of a CSR after one step. -/
def csrAfter (off : Nat) (o : Host.Outcome State Fault Refusal) : Option Nat :=
  match o with
  | .next t => (t.csrRead 4 off).toOption.map BitVec.toNat
  | _ => none

/-- Reset with these inputs to come. -/
def host (l : List Input) : State := { State.reset with inputs := l }

/-- V-ST-11, V-ST-12. -/
theorem test_write_legal_values : csrAfter 0x18 (step (host [wr Config.params .bsLen 0xFFFFFFFF])) = some 64 ∧
    csrAfter 0x20 (step (host [wr Config.params .brBitPos 0xFFFFFFFF])) = some 7 := by decide
/-- V-ST-13, V-ST-14. -/
theorem test_write_ignored : csrAfter 0x14 (step (host [.write 4 0x14 5])) = some 0 ∧
    csrAfter 0x08 (step (host [wr Config.params .result0 5])) = some 0 ∧
    csrAfter 0x04 (step (host [.write 4 0x14 5])) = some 0 := by decide
/-- V-ST-07: dropped, BUSYERR set, CMD kept. -/
theorem test_write_while_busy :
    csrAfter 0x04 (step { State.reset.withFetchWord 32 0 with inputs := [wr Config.params .cmd 1] }) = some 0x09 ∧
    csrAfter 0x00 (step { State.reset.withFetchWord 32 0 with inputs := [wr Config.params .cmd 1] }) = some 0 := by decide
/-- V-ST-05, V-ST-06: STATUS = 0x06 before. -/
theorem test_status_clear :
    csrAfter 0x04 (step { host [wr Config.params .status 4] with status := { Status.zero with done := true, err := true } }) =
      some 0x02 ∧
    csrAfter 0x04 (step { host [wr Config.params .status 0xFFFFFFF3] with
      status := { Status.zero with done := true, err := true } }) = some 0x06 := by decide
/-- The fault a step ends in. -/
def faultSeen (o : Host.Outcome State Fault Refusal) : Option Fault :=
  match o with
  | .fault f => some f
  | _ => none

/-- A word-wide access at offset 2, and a byte access, are BadCsrAccess (`10_state.md` R23). -/
theorem test_bad_csr_access : faultSeen (step (host [.write 4 2 0])) = some .badCsrAccess ∧
    faultSeen (step (host [.read 1 0])) = some .badCsrAccess := by decide
/-- HostRace (`20_memory.md` R76). -/
theorem test_host_race :
    faultSeen (step { State.reset.withFetchWord 32 0 with inputs := [.write 1 0x10000000 7] }) = some .hostRace := by decide
/-- A command lands where the host writes it, and the wait runs it (P1 step 3: RUN on an idle block). -/
theorem test_run_is_seven_accesses : (Pseudo.run .rdbit).accesses Config.params =
    [.wait, .write 4 0 1, .wait, .read 4 4, .read 4 8, .read 4 0x0C, .read 4 0x10] := by decide
/-- SETORG 1, 1, 0 of P3 step 6, and SEEK 41 of V-BR-12. -/
theorem test_pseudo : (Pseudo.setOrg 1 1 0).accesses Config.params = [.write 4 0x58 0x00000001] ∧
    (Pseudo.seek 41).accesses Config.params = [.write 4 0x1C 5, .write 4 0x20 1] ∧
    Pseudo.clrErr.accesses Config.params = [.write 4 0x04 0x0000000C] := by decide

/-! ## Witnesses: for each obligation with hypotheses, a state and operands that meet them together -/

theorem launch_reset : State.reset.launchOk := by unfold State.launchOk; decide

/-- DecodeOfEncodeIsTheCommand: every operand at its largest. -/
theorem witness_DecodeOfEncode : ∀ i ∈ [Instr.rdbits 63, .encTz 15 15, .decRb 15, .ssdb 3 3, .hpel 3 3 .invalid .minusOne],
    i.wf = true := by decide
/-- EncodeOfDecodeIsTheWord, OperandsAreTheirFields: every field all ones. -/
theorem witness_OperandsAreTheirFields : decode 0x00003F02 = .ok (.rdbits 63) ∧ decode 0x00003F03 = .ok (.pkbits 63) ∧
    decode 0x000F0F10 = .ok (.encTz 15 15) ∧ decode 0x000F0F12 = .ok (.encRb 15 15) ∧ decode 0x000F0011 = .ok (.decTz 15) ∧
    decode 0x000F0013 = .ok (.decRb 15) ∧ decode 0x00030320 = .ok (.ssd 3 3) ∧ decode 0x00030321 = .ok (.ssdb 3 3) ∧
    decode 0x0F030322 = .ok (.hpel 3 3 .minusOne .minusOne) := by decide
/-- EveryWordIsOneRowOrIllegal: the first and the last row, a word of no row. -/
theorem witness_EveryWordIsOneRowOrIllegal : (opTable[0]?).isSome = true ∧ (opTable[11]?).isSome = true ∧
    opTable.all (fun r => !r.matchesWord 0x00000004) = true := by decide
/-- UnassignedOpcodeFailsIllegal: both ends of the three ranges. -/
theorem witness_UnassignedOpcode : ∀ x ∈ ([(0xABCDEF04, 0x04), (0x0000000F, 0x0F), (0x00000015, 0x15), (0x0000001F, 0x1F),
    (0x00000023, 0x23), (0xFFFFFFFF, 0xFF)] : List (Word × Nat)), hasOpcode x.1 x.2 ∧
      ((0x04 ≤ x.2 ∧ x.2 ≤ 0x0F) ∨ (0x15 ≤ x.2 ∧ x.2 ≤ 0x1F) ∨ (0x23 ≤ x.2 ∧ x.2 ≤ 0xFF)) := by
  unfold hasOpcode; decide
/-- ReservedBitFailsIllegal: a command without operands, and the bits on both sides of RDBITS's count and HPEL's C[3:0]. -/
theorem witness_ReservedBit : (hasOpcode 0x00000100 0x00 ∧ reservedBitSet 0x00 0x00000100) ∧
    (hasOpcode 0x00004002 0x02 ∧ reservedBitSet 0x02 0x00004002) ∧ (hasOpcode 0x80000002 0x02 ∧ reservedBitSet 0x02 0x80000002) ∧
    (hasOpcode 0x10000022 0x22 ∧ reservedBitSet 0x22 0x10000022) ∧ (hasOpcode 0x00000111 0x11 ∧ reservedBitSet 0x11 0x00000111) :=
  ⟨⟨by unfold hasOpcode; decide, 8, by decide⟩, ⟨by unfold hasOpcode; decide, 14, by decide⟩,
    ⟨by unfold hasOpcode; decide, 31, by decide⟩, ⟨by unfold hasOpcode; decide, 28, by decide⟩,
    ⟨by unfold hasOpcode; decide, 8, by decide⟩⟩

/-- A busy block: NOP issued at reset, with these inputs to come. -/
def busyWith (l : List Input) : State := { State.reset.withFetchWord 32 0 with inputs := l }

theorem launch_busy (l : List Input) : (busyWith l).launchOk := launch_reset
theorem launch_host (l : List Input) : (host l).launchOk := launch_reset

/-- StepRunsThePendingCommand, BusyBlockCompletesInOneStep, each of the three ways the turn comes. -/
theorem witness_StepRunsThePendingCommand : (busyWith []).launchOk ∧ (busyWith []).status.busy = true ∧
    (busyWith []).pending = some 0 ∧ decode 0 = .ok .nop ∧ (busyWith []).inputs = [] ∧
    (busyWith [.wait]).inputs = .wait :: [] ∧ (busyWith [.complete]).inputs = .complete :: [] :=
  ⟨launch_busy _, by decide⟩
/-- A busy block whose PENDING is no command (V-ENC-03), with these inputs to come. -/
def busyIllegal (l : List Input) : State := { State.reset.withFetchWord 32 4 with inputs := l }

/-- BusyBlockCompletesInOneStep, its clause on a word that is no command, each of the three ways the turn comes. -/
theorem witness_BusyIllegal : (∀ l, (busyIllegal l).launchOk) ∧ (busyIllegal []).status.busy = true ∧
    (busyIllegal []).pending = some 4 ∧ decode 4 = .error .unassignedOpcode ∧ (busyIllegal []).inputs = [] ∧
    (busyIllegal [.wait]).inputs = .wait :: [] ∧ (busyIllegal [.complete]).inputs = .complete :: [] :=
  ⟨fun _ => launch_reset, by decide⟩
/-- IdleBlockHasNoStep: both ways. -/
theorem witness_IdleBlockHasNoStep : State.reset.launchOk ∧ State.reset.status.busy = false ∧ State.reset.inputs = [] ∧
    (host [.complete]).inputs = .complete :: [] := ⟨launch_reset, by decide⟩

theorem alone (off : Nat) (h : busTarget Config.params (Config.params.csrBase + off) = some (.csr off)) :
    csrAlone Config.params off := h

/-- CmdWriteIssues, IssuedCommandRunsNext. -/
theorem witness_IssuedCommandRunsNext : (host [.write 4 0 (encode (.rdbits 32)), .complete]).launchOk ∧
    (Instr.rdbits 32).wf = true ∧ csrAlone State.reset.params 0 ∧ State.reset.status.busy = false ∧
    (host [.write 4 0 (encode (.rdbits 32)), .complete]).inputs =
      .write 4 State.reset.params.csrBase (encode (.rdbits 32)) :: .complete :: [] :=
  ⟨launch_host _, by decide, alone 0 (by decide), by decide⟩
/-- WritesWhileBusyAreDropped: the ends of the ranges of offsets. -/
theorem witness_WritesWhileBusy : (busyWith []).status.busy = true ∧
    (∀ off ∈ [0x00, 0x18, 0x28, 0x40, 0x7C], configOffset off) ∧
    (∀ off ∈ [0x14, 0x2C, 0x3C, 0x80, 0xFC], reservedOffset off) := by
  unfold configOffset reservedOffset; decide
/-- IdleWriteReadsBack: every clause has an offset. -/
theorem witness_IdleWriteReadsBack : State.reset.status.busy = false ∧
    (∀ off ∈ [0x00, 0x08, 0x14, 0x18, 0x20, 0x24, 0x7C, 0xFC], off % 4 = 0 ∧ off < 0x100 ∧ off ≠ 0x04) ∧
    configOffset 0x24 ∧ configOffset 0x7C ∧ reservedOffset 0xFC := by
  unfold configOffset reservedOffset; decide
/-- CsrAccessesOutsideTheMap: a wrong width, a misaligned offset, the first offset past the window. -/
theorem witness_CsrAccessesOutside : ∀ x ∈ [(1, 0), (4, 2), (4, 0x100)], x.1 ≠ 4 ∨ x.2 % 4 ≠ 0 ∨ 0x100 ≤ x.2 := by decide
/-- CsrAccessesOutsideTheMap, its clauses through the step: a write taken (idle and busy), a write and a read that fault. -/
theorem witness_CsrAccessSteps : (host [.write 4 0xFC 7]).launchOk ∧ (busyWith [.write 4 0x28 7]).launchOk ∧
    busTarget Config.params 0xFC = some (.csr 0xFC) ∧ busTarget Config.params 0x28 = some (.csr 0x28) ∧
    busTarget Config.params 0xFF = some (.csr 0xFF) ∧ (0xFF : Nat) % 4 ≠ 0 ∧ (1 : Nat) ≠ 4 ∧
    (host [.write 4 0xFC 7]).inputs = .write 4 0xFC 7 :: [] ∧ (busyWith [.write 4 0x28 7]).inputs = .write 4 0x28 7 :: [] ∧
    csrAfter 0x28 (step (host [.write 4 0x28 7])) = some 7 ∧ csrAfter 0x04 (step (busyWith [.write 4 0x28 7])) = some 0x09 ∧
    (State.reset.csrWrite 4 0xFC 7).toOption.isSome = true ∧ (State.reset.csrWrite 4 0xFF 7).toOption.isSome = false ∧
    (State.reset.csrRead 1 0x28).toOption.isSome = false :=
  ⟨launch_host _, launch_busy _, by decide⟩
/-- HostReadsChangeNothing: a CSR, the first and the last byte of each memory. -/
theorem witness_HostReads : (host [.read 4 0x04]).launchOk ∧ (host [.read 4 0x04]).inputs = .read 4 0x04 :: [] ∧
    busTarget Config.params 0x04 = some (.csr 0x04) ∧ busTarget Config.params 0x10000000 = some (.bsmem 0) ∧
    busTarget Config.params 0x1000003F = some (.bsmem 63) ∧ busTarget Config.params 0x100000000 = some (.pixmem 0) ∧
    busTarget Config.params 0x10000001F = some (.pixmem 31) ∧ csrAfter 0x04 (step (host [.read 4 0x04])) = some 0 :=
  ⟨launch_host _, by decide⟩
/-- HostMemoryWriteIsOneByteOrRace: idle and busy. -/
theorem witness_HostMemoryWrite : (host [.write 1 0x1000003F 7]).launchOk ∧ (busyWith [.write 1 0x10000001F 7]).launchOk ∧
    busTarget (host []).params 0x1000003F = some (.bsmem 63) ∧ busTarget (busyWith []).params 0x10000001F = some (.pixmem 31) ∧
    (host []).status.busy = false ∧ (busyWith []).status.busy = true := ⟨launch_host _, launch_busy _, by decide⟩
/-- SeekSetsTheCursor: the largest offset the cursor holds. -/
theorem witness_Seek : (host ((Pseudo.seek (2 ^ 35 - 1)).accesses Config.params)).launchOk ∧ csrAlone Config.params 0x1C ∧
    csrAlone Config.params 0x20 ∧ State.reset.status.busy = false ∧ 2 ^ 35 - 1 < 2 ^ 35 ∧
    (host ((Pseudo.seek (2 ^ 35 - 1)).accesses Config.params)).inputs = (Pseudo.seek (2 ^ 35 - 1)).accesses Config.params ++ [] :=
  ⟨launch_host _, alone _ (by decide), alone _ (by decide), rfl, by omega, by simp [host]⟩
/-- EveryCsrReadsZeroAfterReset: the first and the last offset. -/
theorem witness_EveryCsr : ∀ off ∈ [0x00, 0xFC], off % 4 = 0 ∧ off < 0x100 := by decide
/-- ResetAbandonsTheCommand: with a command in flight. -/
theorem witness_ResetAbandons : (busyWith [.reset]).launchOk ∧ (busyWith [.reset]).inputs = .reset :: [] ∧
    (busyWith [.reset]).pending = some 0 := ⟨launch_busy _, by decide⟩

/-- The state after a step, or the state before where there is none. -/
def after (s : State) : State :=
  match step s with
  | .next t => t
  | _ => s

/-- The step answers a next state. -/
def steps (s : State) : Bool :=
  match step s with
  | .next _ => true
  | _ => false

theorem step_after (s : State) (h : steps s = true) : step s = .next (after s) := by
  unfold steps at h
  unfold after
  split at h
  · rename_i t ht
    rw [ht]
  · cases h

/-- WaitEndsWhenIdle. -/
theorem witness_WaitEndsWhenIdle : (host [.wait]).launchOk ∧ (host [.wait]).status.busy = false ∧ (host [.wait]).inputs = .wait :: [] :=
  ⟨launch_host _, by decide⟩
/-- StepKeepsTheInvariant, NoStepChangesTheTables: a busy state with the invariant, and its completion. -/
theorem witness_StepKeepsTheInvariant : (busyWith []).Inv ∧ step (busyWith []) = .next (after (busyWith [])) :=
  ⟨⟨by decide, fun _ h => Option.some.inj h, by decide, by decide, by decide, by decide, by decide, by decide, by decide⟩,
    step_after _ (by decide)⟩

/-- ERR and BUSYERR set, with this input to come. -/
def stuckErr (i : Input) : State := { host [i] with status := { Status.zero with err := true, busyErr := true } }

/-- StickyBitsClearOnlyByHost: cleared by the write of STATUS, and by reset. -/
theorem witness_StickyBits : step (stuckErr (.write 4 4 0xC)) = .next (after (stuckErr (.write 4 4 0xC))) ∧
    (after (stuckErr (.write 4 4 0xC))).status.err = false ∧ (after (stuckErr (.write 4 4 0xC))).status.busyErr = false ∧
    step (stuckErr .reset) = .next (after (stuckErr .reset)) ∧ (after (stuckErr .reset)).status.err = false :=
  ⟨step_after _ (by decide), by decide, by decide, step_after _ (by decide), by decide⟩
/-- NothingIsWrittenBeforeCompletion: the host reads STATUS while the block is busy. -/
theorem witness_NothingIsWritten : (busyWith [.read 4 4]).status.busy = true ∧
    step (busyWith [.read 4 4]) = .next (after (busyWith [.read 4 4])) ∧ (after (busyWith [.read 4 4])).status.busy = true :=
  ⟨by decide, step_after _ (by decide), by decide⟩
/-- FailedCommandWritesOnlyItsCode: one command of each kind fails. -/
theorem witness_FailedCommand : seen (exec .rdbit State.reset) = some (0, 0, 0, 0, 0x16) ∧
    seen (exec (.encTz 0 0) State.reset) = some (0, 0, 0, 0, 0x36) := by decide
/-- OnlyHpelWritesSamples: a sample that changes. -/
theorem witness_OnlyHpel : samplesSeen [24] (.next (p32 0 0 1 0)) = some ([0], 0x00) ∧
    samplesSeen [24] (exec (.hpel 1 2 .minusOne .plusOne) (p32 0 0 1 0)) = some ([34], 0x02) := by decide

/-- A launch with an empty total-zeros table. -/
def noTable : State := { State.reset with tzTable := { columns := Vector.replicate 16 (columnOf []) } }

/-- IllFormedTableTakesNoStep: the entry the document gives is missing. -/
theorem witness_IllFormedTable : noTable.params.inRange = true ∧
    ¬(TableConditions noTable.tzTable ∧ noTable.tzTable.entry 0 1 = { numBits := 1, codeWord := 1 } ∧
      TableConditions noTable.rbTable) :=
  ⟨by decide, fun h => absurd h.2.1 (by decide)⟩
/-- CommandsFromReset, DecTzMatchesTheColumn, DecRbMatchesTheColumn: a column with a code, the counts at both ends
and the first too large. A column without one is in `witness_EmptyColumn`. -/
theorem witness_CommandsFromReset : State.reset = State.afterReset Config.params tzStd rbStd 0 ∧ hasLength tzStd 1 1 ∧
    hasLength tzStd 15 1 ∧ hasLength rbStd 15 11 ∧ 1 ≤ 32 ∧ 32 ≤ 32 ∧ 32 < 33 :=
  ⟨rfl, ⟨0, by decide⟩, ⟨0, by decide⟩, ⟨14, by decide⟩, by decide⟩

/-- CommandsFromReset: column 0 of both candidate tables has no code. -/
theorem witness_EmptyColumn : ∀ len, 1 ≤ len → len ≤ 16 → ¬hasLength tzStd 0 len ∧ ¬hasLength rbStd 0 len := by
  have key : (List.range 16).all (fun sym => (tzStd.entry sym 0).numBits == 0 && (rbStd.entry sym 0).numBits == 0) = true := by decide
  have none (sym : Nat) (h : sym < 16) : (tzStd.entry sym 0).numBits = 0 ∧ (rbStd.entry sym 0).numBits = 0 := by
    simpa using List.all_eq_true.1 key sym (List.mem_range.2 h)
  intro len h1 _
  constructor <;> rintro ⟨sym, hs, hl⟩ <;> have := none sym hs <;> omega

/-! ### The bit reader -/

/-- RdbitReadsTheBitAtTheCursor, RdbitsReadsAndAdvances, PkbitsReadsAtPeekOff: up to the last bit, and one bit past it; the
largest count and the first too large. -/
theorem witness_Reads : (s5 4 7).cursor + 1 ≤ streamEnd (s5 4 7) ∧ streamEnd (s5 5 0) < (s5 5 0).cursor + 1 ∧
    (s5 1 0).cursor + 32 ≤ streamEnd (s5 1 0) ∧ streamEnd (s5 1 1) < (s5 1 1).cursor + 32 ∧ 32 < 33 := by decide
/-- PkbitsReadsAtPeekOff: the last offset that fits 32 bits, and the largest offset there is. -/
theorem witness_Peeks : ({ s5 0 0 with peekOff := 8 } : State).peekOff.toNat + 32 ≤ streamEnd (s5 0 0) ∧
    streamEnd (s5 0 0) < ({ s5 0 0 with peekOff := 0xFFFFFFFF } : State).peekOff.toNat + 1 := by decide
/-- StreamIsOneLittleEndianNumber, ReadsCompose: V-BR-15 and the whole width. -/
theorem witness_ReadsCompose : 5 + 7 ≤ 32 ∧ (s5 0 2).cursor + 5 + 7 ≤ streamEnd (s5 0 2) ∧ 20 + 12 ≤ 32 ∧
    (s5 1 0).cursor + 20 + 12 ≤ streamEnd (s5 1 0) := by decide
/-- PeekEqualsRead. -/
theorem witness_PeekEqualsRead : ({ s5 0 3 with peekOff := 3 } : State).peekOff.toNat = (s5 0 3).cursor := by decide

/-! ### The VLC coder -/

/-- The first byte 0x01, and no more. -/
def oneBit : State := short [(0, 0x01)]

theorem launch_short (m : Memory) : (short m).launchOk := launch_reset

/-- DecTzMatchesTheColumn, DecodeInvertsEncode, DocumentedCodeRoundTrips: the code of one bit at the cursor. -/
theorem witness_DecodeHit : oneBit.launchOk ∧ codeAtCursor oneBit oneBit.tzTable 1 0 1 ∧ oneBit.cursor + 1 ≤ streamEnd oneBit ∧
    oneBit.bsBit oneBit.cursor = 1 ∧ undecidedBelow oneBit oneBit.tzTable 1 1 :=
  ⟨launch_short _, by unfold codeAtCursor; decide, by decide, by decide, by intro l h1 h2; omega⟩
/-- DecRbMatchesTheColumn, DecodeInvertsEncode: the two bits `10` of run-before 1 at zeros-left 3. -/
theorem witness_DecodeHitRb : oneBit.launchOk ∧ codeAtCursor oneBit oneBit.rbTable 3 1 2 ∧ oneBit.cursor + 2 ≤ streamEnd oneBit :=
  ⟨launch_short _, by unfold codeAtCursor; decide, by decide⟩
/-- DecTzMatchesTheColumn, DecRbMatchesTheColumn: the stream too short for the shortest code. -/
theorem witness_DecodeOob : hasLength State.reset.tzTable 1 1 ∧ streamEnd State.reset < State.reset.cursor + 1 ∧
    undecidedBelow State.reset State.reset.tzTable 1 1 ∧ hasLength State.reset.rbTable 1 1 :=
  ⟨⟨0, by decide⟩, by decide, by intro l h1 h2; omega, ⟨0, by decide⟩⟩
/-- DecTzMatchesTheColumn, DecRbMatchesTheColumn: an empty column decides nothing at any length. -/
theorem witness_DecodeNoMatch : undecidedBelow State.reset State.reset.tzTable 0 17 ∧
    undecidedBelow State.reset State.reset.rbTable 0 17 :=
  ⟨fun l h1 h2 h => absurd h (witness_EmptyColumn l h1 (by omega)).1, fun l h1 h2 h => absurd h (witness_EmptyColumn l h1 (by omega)).2⟩
/-- DecodeConsumesTheEntryItReturns: a decode that ends without error. -/
theorem witness_DecodeConsumes : seen (exec (.decTz 1) oneBit) = some (0, 1, 1, 1, 0x02) ∧
    seen (exec (.decRb 3) oneBit) = some (1, 3, 2, 2, 0x02) := by decide

/-! ### Windows -/

/-- WindowCheckKeepsSamplesInside: P32's window in the last corner of its parent, and one column too far. -/
theorem witness_WindowCheck : placed (big 12 2 1) 32 2 1 ∧ ¬placed (big 12 3 1) 32 3 1 ∧ 1 < (big 12 2 1).w ∧ 1 < (big 12 2 1).h := by
  unfold placed; decide
/-- SsdSumsTheSquares, SsdbStopsAtTheLimit, SsdbKeepsTheContract, SsdIsADistance: P32. -/
theorem witness_Comparable : comparable (p32 0 0 0 0) ((p32 0 0 0 0).overlay 0) ((p32 0 0 0 0).overlay 1) := by
  unfold comparable sized placed; decide
/-- SsdErrors: BAD_PARAM at both ends of the range, DIM_MISMATCH, PIX_OOB (V-PX-06 to V-PX-09c). -/
theorem witness_SsdErrors : ¬sized { ov2 with size := 0 } ∧ ¬sized { ov2 with size := 0x00010101 } ∧ sized { ov2 with size := 0x01000100 } ∧
    (sized ov2 ∧ sized { ov2 with size := 0x00020001 } ∧ ¬(ov2.w = ({ ov2 with size := 0x00020001 } : Overlay).w)) ∧
    (sized (big 12 3 0) ∧ ov2.w = (big 12 3 0).w ∧ ov2.h = (big 12 3 0).h ∧ ¬placed (big 12 3 0) 32 3 0) := by
  unfold sized placed; decide
/-- NoSumOverflows: the largest window; its second clause has the windows of `witness_Comparable`. -/
theorem witness_NoSumOverflows : sized { ov2 with size := 0x01000100 } := by unfold sized; decide
/-- HpelAveragesIntoTheDestination, its effect: V-PX-23, and V-PX-28 with the destination over the source. -/
theorem witness_Filterable : filterable (p32 0 0 1 0) ((p32 0 0 1 0).overlay 1) ((p32 0 0 1 0).overlay 2) (-1) 1 ∧
    filterable (p32 0 0 0 0) ((p32 0 0 0 0).overlay 0) ((p32 0 0 0 0).overlay 0) 1 0 ∧
    shiftValue .minusOne = some (-1) ∧ shiftValue .plusOne = some 1 ∧ shiftValue .zero = some 0 := by
  unfold filterable sized placed; decide
/-- HpelErrors: the invalid code, and each later error. -/
theorem witness_HpelErrors : shiftValue .invalid = none ∧ shiftValue .minusOne = some (-1) ∧
    ¬sized ((p32With { big 0 0 0 with size := 0 } (big 12 0 0) ov2 .zero).overlay 0) ∧
    ¬((p32With (big 0 0 0) (big 12 0 0) { ov2 with size := 0x00010001 } .zero).overlay 0).w =
      ((p32With (big 0 0 0) (big 12 0 0) { ov2 with size := 0x00010001 } .zero).overlay 2).w ∧
    ¬placed ((p32 0 0 0 0).overlay 0) 32 (-1) 0 := by
  unfold sized placed; decide

end Sys2Proof.Tests
end

/-! The scope of the block (`00_scope.md` R10, R13): what the memories read as after a completion, and the turn of an
idle block. -/

namespace Sys2Proof.Machine

/-! ## The memories after a completion -/

/-- No completion changes a byte of BSMEM (`00_scope.md` R10). -/
@[simp] theorem State.complete_bsByte (s : State) (c : Completion) (a : Nat) :
    (s.complete c).bsByte a = s.bsByte a := by simp [State.bsByte]

/-- A completion that writes no sample leaves PIXMEM as it reads. -/
theorem State.complete_pixSample_of_no_samples (s : State) (c : Completion) (h : c.samples = []) (a : Nat) :
    (s.complete c).pixSample a = s.pixSample a := by
  simp [State.pixSample, h, Memory.writeAll]

/-! ## The block's turn -/

/-- The block has a step only while BUSY = 1 (`00_scope.md` R13), whatever PENDING holds. -/
theorem blockStep_of_idle {s : State} (h : s.status.busy = false) : blockStep s = .refused .idle := by
  unfold blockStep
  split
  · rename_i hbusy _
    simp [h] at hbusy
  · rfl

/-- With no input left it is the block's turn. -/
theorem schedule_of_inputs_nil {s : State} (h : s.inputs = []) : schedule s = blockStep s := by
  rw [schedule, h]

/-- The input `complete` gives the block its turn. -/
theorem schedule_of_inputs_complete {s : State} {rest : List Input} (h : s.inputs = .complete :: rest) :
    schedule s = blockStep { s with inputs := rest } := by
  rw [schedule, h]

/-! ## The obligations of the scope -/

/-- Settles O33: every command is its completion, which keeps BSMEM, and keeps PIXMEM unless the command is HPEL. -/
theorem onlyHpelWritesSamples : Obligations.OnlyHpelWritesSamples := by
  intro i s t hexec
  obtain rfl := exec_next hexec
  refine ⟨s.complete_bsByte _, fun ⟨a, hchanged⟩ => ?_⟩
  by_contra hother
  have hsamples : (completionOf i s).samples = [] :=
    completionOf_samples i s fun src dst dx dy hi => hother ⟨src, dst, dx, dy, hi⟩
  exact hchanged (s.complete_pixSample_of_no_samples _ hsamples a)

/-- Settles O10: in both cases the schedule gives the block its turn, and an idle block has no step. -/
theorem idleBlockHasNoStep : Obligations.IdleBlockHasNoStep := by
  intro s hlaunch hidle hturn
  rw [step_of_launchOk hlaunch]
  obtain hnil | ⟨rest, hcomplete⟩ := hturn
  · rw [schedule_of_inputs_nil hnil, blockStep_of_idle hidle]
  · rw [schedule_of_inputs_complete hcomplete]
    exact blockStep_of_idle hidle

end Sys2Proof.Machine

/-! The handshake and the CSR file (`10_state.md`): the shared facts about a completion, the CSR map, the host's accesses and
the block's turn, then the obligations of that family. -/

/-! ## The command's word decodes to the command (`30_encoding.md` R86, R87) -/

namespace Sys2Proof

/-- The word of R87 decodes to its command, shape by shape over the values its fields can hold. -/
theorem decode_encode {i : Instr} (h : i.wf = true) : decode (encode i) = .ok i := by
  cases i with
  | nop | rdbit | dec1 => decide
  | rdbits n =>
    have all : ∀ n : Fin 64, decode (encode (.rdbits n)) = .ok (.rdbits n) := by decide
    exact all ⟨n, by simpa [Instr.wf, countOk] using h⟩
  | pkbits n =>
    have all : ∀ n : Fin 64, decode (encode (.pkbits n)) = .ok (.pkbits n) := by decide
    exact all ⟨n, by simpa [Instr.wf, countOk] using h⟩
  | encTz a b =>
    have all : ∀ a b : Fin 16, decode (encode (.encTz a b)) = .ok (.encTz a b) := by decide
    simp only [Instr.wf, symbolOk, Bool.and_eq_true, decide_eq_true_eq] at h
    exact all ⟨a, h.1⟩ ⟨b, h.2⟩
  | decTz b =>
    have all : ∀ b : Fin 16, decode (encode (.decTz b)) = .ok (.decTz b) := by decide
    exact all ⟨b, by simpa [Instr.wf, symbolOk] using h⟩
  | encRb a b =>
    have all : ∀ a b : Fin 16, decode (encode (.encRb a b)) = .ok (.encRb a b) := by decide
    simp only [Instr.wf, symbolOk, Bool.and_eq_true, decide_eq_true_eq] at h
    exact all ⟨a, h.1⟩ ⟨b, h.2⟩
  | decRb b =>
    have all : ∀ b : Fin 16, decode (encode (.decRb b)) = .ok (.decRb b) := by decide
    exact all ⟨b, by simpa [Instr.wf, symbolOk] using h⟩
  | ssd a b =>
    have all : ∀ a b : Fin 4, decode (encode (.ssd a b)) = .ok (.ssd a b) := by decide
    simp only [Instr.wf, overlayOk, Bool.and_eq_true, decide_eq_true_eq] at h
    exact all ⟨a, h.1⟩ ⟨b, h.2⟩
  | ssdb a b =>
    have all : ∀ a b : Fin 4, decode (encode (.ssdb a b)) = .ok (.ssdb a b) := by decide
    simp only [Instr.wf, overlayOk, Bool.and_eq_true, decide_eq_true_eq] at h
    exact all ⟨a, h.1⟩ ⟨b, h.2⟩
  | hpel a b dx dy =>
    have all (x y : ShiftCode) : ∀ a b : Fin 4, decode (encode (.hpel a b x y)) = .ok (.hpel a b x y) := by
      cases x <;> cases y <;> decide
    simp only [Instr.wf, overlayOk, Bool.and_eq_true, decide_eq_true_eq] at h
    exact all dx dy ⟨a, h.1⟩ ⟨b, h.2⟩

end Sys2Proof

namespace Sys2Proof.Machine

open Sys2Proof.Claims

/-! ## What a completion leaves and reports -/

/-- Codes 9 to 15 are never produced (`60_exceptions.md` R180). -/
theorem ErrCode.code_le (c : ErrCode) : c.code ≤ 8 := by cases c <;> decide

/-- The completion's STATUS is the one the claims write out (`10_state.md` R39). -/
theorem Status.complete_eq_after (st : Status) (c : ErrCode) : st.complete c = st.after c.code := by cases c <;> rfl

/-- A failure is the claims' end of a command with that code (`60_exceptions.md` R183). -/
theorem State.fail_eq_ended (s : State) (c : ErrCode) : s.fail c = s.ended c.code := by
  rw [State.fail_eq, Status.complete_eq_after, State.ended]

/-- Every completion leaves STATUS completed with the code it reports. -/
theorem State.status_complete_eq_after (s : State) (c : Completion) :
    (s.complete c).status = s.status.after (s.complete c).status.errCode := by
  simpa using s.status.complete_eq_after c.code

theorem State.errCode_complete_le (s : State) (c : Completion) : (s.complete c).status.errCode ≤ 8 := by
  simpa using c.code.code_le

/-- No completion writes the configuration, CMD, BSMEM, the constants or the model's own fields. -/
theorem State.sameConfig_complete (s : State) (c : Completion) : s.SameConfig (s.complete c) := by
  constructor <;> simp

/-- HPEL writes only indices of PIXMEM: its check of the destination window puts every sample inside (`20_memory.md` R68). -/
theorem State.hpelCompletion_samples_lt (s : State) (src dst : Overlay) (dx dy : Option Int) :
    ∀ w ∈ (s.hpelCompletion src dst dx dy).samples, w.1 < s.params.pixSize := by
  unfold State.hpelCompletion
  split
  · rename_i dx dy
    split
    · simp [Completion.error]
    · rename_i hchecks
      obtain ⟨-, -, hw, hh, hplaced⟩ := (windowChecks_eq_none ..).1 hchecks
      have hdst : dst.winOk s.params.pixSize dst.x dst.y = true := by
        simp only [Bool.and_eq_true] at hplaced
        exact hplaced.2
      intro w hmem
      obtain ⟨⟨j, i⟩, hji, rfl⟩ := List.mem_map.1 hmem
      obtain ⟨hj, hi⟩ := (mem_raster ..).1 hji
      obtain ⟨-, -, -, -, hnonneg, hlt⟩ := dst.winOk_inside _ _ _ hdst j i (by omega) (by omega)
      dsimp only
      omega
  · simp [Completion.error]

/-- Whatever word the block completes, it writes only indices of PIXMEM. -/
theorem wordCompletion_samples_lt (w : Word) (s : State) :
    ∀ x ∈ (wordCompletion w s).samples, x.1 < s.params.pixSize := by
  unfold wordCompletion
  split
  · rename_i i _
    by_cases hi : ∃ src dst dx dy, i = .hpel src dst dx dy
    · obtain ⟨src, dst, dx, dy, rfl⟩ := hi
      exact s.hpelCompletion_samples_lt _ _ _ _
    · rw [completionOf_samples i s fun a b c d h => hi ⟨a, b, c, d, h⟩]
      simp
  · simp [Completion.error]

/-! ## The invariant, operation by operation -/

/-- The invariant says nothing of the model's own inputs and last read value. -/
theorem State.Inv.setHost {s : State} (h : s.Inv) (l : List Input) (v : Option Word) :
    State.Inv { s with inputs := l, lastRead := v } := { h with }

/-- A completion ends the handshake, reports an assigned code, and keeps both memories in their form and size. -/
theorem State.Inv.complete {s : State} (h : s.Inv) (c : Completion) (hc : ∀ x ∈ c.samples, x.1 < s.params.pixSize) :
    (s.complete c).Inv where
  pending_iff_busy := by simp
  pending_is_cmd := by simp
  busy_not_done := by simp
  errCode_assigned := s.errCode_complete_le c
  bsLen_le := by simpa using h.bsLen_le
  bsmem_wf := by simpa using h.bsmem_wf
  bsmem_below := by simpa using h.bsmem_below
  pixmem_wf := by simpa using Memory.wf_writeAll c.samples s.pixmem h.pixmem_wf
  pixmem_below := by simpa using Memory.below_writeAll c.samples s.pixmem _ h.pixmem_below hc

/-- A write the block accepts: CMD starts the handshake (R36), BS_LEN takes at most BS_SIZE (R28), and no other CSR
is bound. -/
theorem State.Inv.csrStore {s : State} (h : s.Inv) (r : Csr) (v : Word) : (s.csrStore r v).Inv := by
  cases r with
  | cmd => exact { h with pending_iff_busy := rfl, pending_is_cmd := by simp [State.csrStore], busy_not_done := fun _ => rfl }
  | bsLen =>
    refine { h with bsLen_le := ?_ }
    simp only [State.csrStore, BitVec.toNat_ofNat]
    omega
  | _ => exact { h with }

/-- A CSR write keeps the invariant, accepted or dropped. -/
theorem State.Inv.csrWriteAt {s : State} (h : s.Inv) (r : Csr) (v : Word) : (s.csrWriteAt r v).Inv := by
  unfold State.csrWriteAt
  split
  · exact { h with }
  · exact h.csrStore r v

/-- Reset meets the invariant. -/
theorem State.Inv.applyReset (s : State) : s.applyReset.Inv where
  pending_iff_busy := rfl
  pending_is_cmd := by simp
  busy_not_done := fun _ => rfl
  errCode_assigned := by simp [Status.zero]
  bsLen_le := Nat.zero_le _
  bsmem_wf := rfl
  bsmem_below := rfl
  pixmem_wf := rfl
  pixmem_below := rfl

/-- Settles O28, by the ways a step can go. -/
theorem stepKeepsTheInvariant : Obligations.StepKeepsTheInvariant := by
  intro s t hinv hstep
  obtain ⟨-, hmoved⟩ := step_next hstep
  cases hmoved with
  | block rest w hbusy hpending =>
    exact (hinv.setHost rest s.lastRead).complete _ (wordCompletion_samples_lt w _)
  | read rest v => exact hinv.setHost rest (some v)
  | ignored rest => exact hinv.setHost rest s.lastRead
  | csr rest r v => exact (hinv.setHost rest s.lastRead).csrWriteAt r v
  | bsmem rest i b hi hidle =>
    exact { hinv with
      bsmem_wf := Memory.wf_write s.bsmem i b hinv.bsmem_wf
      bsmem_below := Memory.below_write s.bsmem i b _ hinv.bsmem_below hi }
  | pixmem rest i b hi hidle =>
    exact { hinv with
      pixmem_wf := Memory.wf_write s.pixmem i b hinv.pixmem_wf
      pixmem_below := Memory.below_write s.pixmem i b _ hinv.pixmem_below hi }
  | reset rest => exact State.Inv.applyReset _

/-- Settles O11: every command is a completion, and every completion has this frame. -/
theorem everyCommandCompletesInFrame : Obligations.EveryCommandCompletesInFrame := fun i s =>
  ⟨s.complete (completionOf i s), exec_eq i s, s.status_complete_eq_after _,
    s.errCode_complete_le _, s.complete_pending _, s.sameConfig_complete _, s.complete_bsByte _⟩

/-! ## The CSR map: each register at its offset, and nothing else (`10_state.md` R22) -/

theorem csrAt_offset (r : Csr) : csrAt r.offset = some r := by
  cases r with
  | ovBase n => exact (by decide : ∀ n, csrAt (Csr.ovBase n).offset = some (.ovBase n)) n
  | ovPdim n => exact (by decide : ∀ n, csrAt (Csr.ovPdim n).offset = some (.ovPdim n)) n
  | ovOrg n => exact (by decide : ∀ n, csrAt (Csr.ovOrg n).offset = some (.ovOrg n)) n
  | ovSize n => exact (by decide : ∀ n, csrAt (Csr.ovSize n).offset = some (.ovSize n)) n
  | _ => rfl

/-- The CSR at an offset is the one the map places there. -/
theorem csrAt_eq_some {off : Nat} {r : Csr} : csrAt off = some r ↔ off = r.offset := by
  constructor
  · intro h
    unfold csrAt at h
    split at h
    case h_11 =>
      split at h
      · rename_i hrange
        unfold overlayCsr at h
        split at h <;> cases h <;> simp only [Csr.offset, Fin.ofNat] <;> omega
      · cases h
    all_goals cases h; rfl
  · rintro rfl
    exact csrAt_offset r

theorem Csr.offset_inj {r q : Csr} : r.offset = q.offset ↔ r = q := by
  rw [← csrAt_eq_some, csrAt_offset, Option.some.injEq]

@[simp] theorem csrAccessOk_eq_true {bytes off : Nat} :
    csrAccessOk bytes off = true ↔ bytes = 4 ∧ off % 4 = 0 ∧ off < 0x100 := by
  simp [csrAccessOk, and_assoc]

@[simp] theorem csrAccessOk_eq_false {bytes off : Nat} :
    csrAccessOk bytes off = false ↔ bytes ≠ 4 ∨ off % 4 ≠ 0 ∨ 0x100 ≤ off := by
  rw [← Bool.not_eq_true, csrAccessOk_eq_true]
  omega

theorem Csr.accessOk_offset (r : Csr) : csrAccessOk 4 r.offset = true := by
  refine csrAccessOk_eq_true.2 ⟨rfl, ?_⟩
  generalize hoff : r.offset = off
  cases r <;> simp only [Csr.offset] at hoff <;> omega

theorem csrAccessOk_of_reservedOffset {off : Nat} (h : reservedOffset off) : csrAccessOk 4 off = true := by
  rw [csrAccessOk_eq_true]
  unfold reservedOffset at h
  omega

/-- The CSRs a write is held back from while BUSY = 1 are those of R37's list. -/
theorem Csr.configOffset_offset (r : Csr) : configOffset r.offset ↔ r.heldWhileBusy = true := by
  unfold configOffset
  simp only [List.mem_cons, List.not_mem_nil, or_false]
  generalize hoff : r.offset = off
  cases r <;> simp only [Csr.offset] at hoff <;>
    simp only [Csr.heldWhileBusy, Bool.false_eq_true, iff_true, iff_false] <;> omega

theorem Csr.not_reservedOffset_offset (r : Csr) : ¬reservedOffset r.offset := by
  unfold reservedOffset
  generalize hoff : r.offset = off
  cases r <;> simp only [Csr.offset] at hoff <;> omega

/-- Every aligned offset of the window is a CSR's or reserved. -/
theorem offset_cases {off : Nat} (halign : off % 4 = 0) (hlt : off < 0x100) :
    (∃ r : Csr, off = r.offset) ∨ reservedOffset off := by
  cases hr : csrAt off with
  | some r => exact .inl ⟨r, csrAt_eq_some.1 hr⟩
  | none =>
    have all : ∀ k : Fin 64, csrAt (4 * k) = none → reservedOffset (4 * k) := by unfold reservedOffset; decide
    have hoff : 4 * (off / 4) = off := by omega
    exact .inr (by simpa [hoff, hr] using all ⟨off / 4, by omega⟩)

theorem csrAt_of_reservedOffset {off : Nat} (h : reservedOffset off) : csrAt off = none := by
  cases hr : csrAt off with
  | none => rfl
  | some r => exact absurd (csrAt_eq_some.1 hr ▸ h) r.not_reservedOffset_offset

/-- A configuration offset is the offset of a CSR that R37 holds. -/
theorem exists_held_of_configOffset {off : Nat} (h : configOffset off) :
    ∃ r : Csr, off = r.offset ∧ r.heldWhileBusy = true := by
  have hconfig := h
  simp only [configOffset, List.mem_cons, List.not_mem_nil, or_false] at h
  rcases offset_cases (off := off) (by omega) (by omega) with ⟨r, rfl⟩ | hreserved
  · exact ⟨r, rfl, r.configOffset_offset.1 hconfig⟩
  · unfold reservedOffset at hreserved
    omega

/-! ## CSR reads and writes by name (R23) -/

theorem State.csrRead_offset (s : State) (r : Csr) : s.csrRead 4 r.offset = .ok (s.csrValue r) := by
  simp [State.csrRead, r.accessOk_offset, csrAt_offset]

theorem State.csrWrite_offset (s : State) (r : Csr) (v : Word) : s.csrWrite 4 r.offset v = .ok (s.csrWriteAt r v) := by
  simp [State.csrWrite, r.accessOk_offset, csrAt_offset]

/-- A reserved offset reads 0. -/
theorem State.csrRead_reserved (s : State) {off : Nat} (h : reservedOffset off) : s.csrRead 4 off = .ok 0 := by
  simp [State.csrRead, csrAccessOk_of_reservedOffset h, csrAt_of_reservedOffset h]

/-- A write to a reserved offset is ignored. -/
theorem State.csrWrite_reserved (s : State) {off : Nat} (v : Word) (h : reservedOffset off) : s.csrWrite 4 off v = .ok s := by
  simp [State.csrWrite, csrAccessOk_of_reservedOffset h, csrAt_of_reservedOffset h]

theorem State.csrRead_bad (s : State) {bytes off : Nat} (h : csrAccessOk bytes off = false) :
    s.csrRead bytes off = .error .badCsrAccess := by
  simp [State.csrRead, h]

theorem State.csrWrite_bad (s : State) {bytes off : Nat} (v : Word) (h : csrAccessOk bytes off = false) :
    s.csrWrite bytes off v = .error .badCsrAccess := by
  simp [State.csrWrite, h]

/-- A CSR read does not look at the inputs still to come. -/
@[simp] theorem State.csrRead_inputs (s : State) (l : List Input) (bytes off : Nat) :
    State.csrRead { s with inputs := l } bytes off = s.csrRead bytes off := rfl

/-! ## What a CSR write does -/

/-- While BUSY = 1 a write to CMD or a configuration CSR is dropped (R37). -/
theorem State.csrWriteAt_of_busy_of_held {s : State} {r : Csr} (v : Word) (hbusy : s.status.busy = true)
    (hheld : r.heldWhileBusy = true) : s.csrWriteAt r v = { s with status := s.status.dropped } := by
  simp [State.csrWriteAt, hbusy, hheld]

theorem State.csrWriteAt_of_idle {s : State} (r : Csr) (v : Word) (hidle : s.status.busy = false) :
    s.csrWriteAt r v = s.csrStore r v := by
  simp [State.csrWriteAt, hidle]

/-- STATUS takes its write busy or not (R26). -/
theorem State.csrWriteAt_status (s : State) (v : Word) :
    s.csrWriteAt .status v = { s with status := s.status.clear v } := by
  simp [State.csrWriteAt, Csr.heldWhileBusy, State.csrStore]

/-- A write to a RESULT register is ignored, busy or not (R23). -/
theorem State.csrWrite_result (s : State) {off : Nat} (v : Word) (h : off ∈ [0x08, 0x0C, 0x10]) :
    s.csrWrite 4 off v = .ok s := by
  have result (r : Csr) (hr : r = .result0 ∨ r = .result1 ∨ r = .result2) : s.csrWrite 4 r.offset v = .ok s := by
    rw [s.csrWrite_offset]
    rcases hr with rfl | rfl | rfl <;> simp [State.csrWriteAt, Csr.heldWhileBusy, State.csrStore]
  simp only [List.mem_cons, List.not_mem_nil, or_false] at h
  rcases h with rfl | rfl | rfl
  · exact result .result0 (by simp)
  · exact result .result1 (by simp)
  · exact result .result2 (by simp)

/-- The host's write to STATUS as R26 words it. -/
theorem Status.clear_eq (st : Status) (v : Word) :
    st.clear v = { st with
      err := if v.getLsbD 2 then false else st.err, busyErr := if v.getLsbD 3 then false else st.busyErr } := by
  unfold Status.clear
  cases v.getLsbD 2 <;> cases v.getLsbD 3 <;> simp

/-- Settles O16: STATUS is never held. -/
theorem statusWriteClearsByOnes : Obligations.StatusWriteClearsByOnes := by
  intro s v
  have hwrite := s.csrWrite_offset .status v
  rwa [s.csrWriteAt_status, Status.clear_eq] at hwrite

/-- Settles O15: R37's offsets are the held CSRs, whose write is dropped. -/
theorem writesWhileBusyAreDropped : Obligations.WritesWhileBusyAreDropped := by
  intro s v hbusy
  refine ⟨fun off hoff => ?_, statusWriteClearsByOnes s v, ?_⟩
  · obtain ⟨r, rfl, hheld⟩ := exists_held_of_configOffset hoff
    rw [s.csrWrite_offset, State.csrWriteAt_of_busy_of_held v hbusy hheld, Status.dropped]
  · rintro off (hresult | hreserved)
    · exact s.csrWrite_result v hresult
    · exact s.csrWrite_reserved v hreserved

/-! ## What the CSRs read as -/

/-- STATUS's fields are one bit, but for ERRCODE's four (R25). -/
theorem Status.fields_le (st : Status) :
    st.busy.toNat ≤ 1 ∧ st.done.toNat ≤ 1 ∧ st.err.toNat ≤ 1 ∧ st.busyErr.toNat ≤ 1 ∧ st.errCode.toNat < 2 ^ 4 :=
  ⟨Bool.toNat_le _, Bool.toNat_le _, Bool.toNat_le _, Bool.toNat_le _, st.errCode.isLt⟩

/-- STATUS's word loses nothing of its fields: they fit 32 bits. -/
theorem Status.toNat_word (st : Status) :
    st.word.toNat =
      st.busy.toNat + 2 * st.done.toNat + 4 * st.err.toNat + 8 * st.busyErr.toNat + 16 * st.errCode.toNat := by
  have hfields := st.fields_le
  rw [Status.word, BitVec.toNat_ofNat, Nat.mod_eq_of_lt (by omega)]

/-- Settles O17: each field is a digit of the word. -/
theorem statusReadsItsFields : Obligations.StatusReadsItsFields := by
  intro s
  refine ⟨s.status.word, s.csrRead_offset .status, ?_⟩
  have hword := s.status.toNat_word
  have hfields := s.status.fields_le
  have bit (k : Nat) (b : Bool) (h : s.status.word.toNat / 2 ^ k % 2 = b.toNat) : s.status.word.getLsbD k = b := by
    rw [BitVec.getLsbD, Nat.testBit_eq_decide_div_mod_eq, h]
    cases b <;> rfl
  refine ⟨bit 0 _ (by omega), bit 1 _ (by omega), bit 2 _ (by omega), bit 3 _ (by omega), ?_, fun k hk => ?_⟩
  · apply BitVec.eq_of_toNat_eq
    rw [BitVec.extractLsb'_toNat, Nat.shiftRight_eq_div_pow]
    omega
  · have : 2 ^ 8 ≤ 2 ^ k := Nat.pow_le_pow_right (by omega) hk
    exact Nat.testBit_lt_two_pow (by omega)

/-- Settles O18: the map by name, the reserved offsets, and the two halves of a descriptor word. -/
theorem csrReadsFollowTheMap : Obligations.CsrReadsFollowTheMap := by
  intro s
  refine ⟨s.csrRead_offset .cmd, s.csrRead_offset .status, s.csrRead_offset .result0, s.csrRead_offset .result1,
    s.csrRead_offset .result2, s.csrRead_offset .bsLen, s.csrRead_offset .brBytePos, s.csrRead_offset .brBitPos,
    s.csrRead_offset .peekOff, s.csrRead_offset .ssdLimit,
    fun n => ⟨s.csrRead_offset (.ovBase n), s.csrRead_offset (.ovPdim n), s.csrRead_offset (.ovOrg n),
      s.csrRead_offset (.ovSize n)⟩, fun o => ?_, fun off => s.csrRead_reserved⟩
  have low (w : Word) : (w.extractLsb' 0 16).toNat = w.toNat % 2 ^ 16 := by simp
  have high (w : Word) : (w.extractLsb' 16 16).toNat = w.toNat / 2 ^ 16 := by
    rw [BitVec.extractLsb'_toNat, Nat.shiftRight_eq_div_pow]
    omega
  exact ⟨low _, high _, low _, high _, low _, high _⟩

/-! ## A write the block accepts, read back -/

/-- A descriptor reads back where it was written, and the other three are kept. -/
theorem State.setOverlay_getElem (s : State) (n m : Fin 4) (o : Overlay) :
    (s.setOverlay n o).overlays[m] = if n = m then o else s.overlays[m] := by
  simp [Vector.getElem_set, Fin.ext_iff]

/-- What a CSR that takes the whole word reads after its write (R24, R29, R31 to R34). -/
theorem State.csrValue_csrStore_self (s : State) (r : Csr) (v : Word) (hheld : r.heldWhileBusy = true)
    (hbsLen : r ≠ .bsLen) (hbrBitPos : r ≠ .brBitPos) : (s.csrStore r v).csrValue r = v := by
  cases r with
  | status | result0 | result1 | result2 => cases hheld
  | bsLen => exact absurd rfl hbsLen
  | brBitPos => exact absurd rfl hbrBitPos
  | ovBase n | ovPdim n | ovOrg n | ovSize n =>
    simp only [State.csrStore, State.csrValue, State.setOverlay_getElem, if_true]
  | _ => rfl

/-- BR_BITPOS keeps the low three bits, and its other bits read 0 (R30). -/
theorem State.csrValue_csrStore_brBitPos (s : State) (v : Word) :
    (s.csrStore .brBitPos v).csrValue .brBitPos = BitVec.ofNat 32 (v.toNat % 8) := by
  apply BitVec.eq_of_toNat_eq
  simp [State.csrStore, State.csrValue]

/-- A write changes no other CSR, apart from STATUS when the write issues (R36). -/
theorem State.csrValue_csrStore_of_ne (s : State) {r q : Csr} (v : Word) (hne : q ≠ r)
    (hissue : r = .cmd → q ≠ .status) : (s.csrStore r v).csrValue q = s.csrValue q := by
  cases r with
  | cmd =>
    cases q with
    | cmd => exact absurd rfl hne
    | status => exact absurd rfl (hissue rfl)
    | _ => rfl
  | status | result0 | result1 | result2 | bsLen | brBytePos | brBitPos | peekOff | ssdLimit =>
    cases q <;> simp_all [State.csrStore, State.csrValue]
  | ovBase n | ovPdim n | ovOrg n | ovSize n =>
    cases q with
    | ovBase m | ovPdim m | ovOrg m | ovSize m =>
      simp only [State.csrStore, State.csrValue, State.setOverlay_getElem]
      split
      · simp_all
      · rfl
    | _ => rfl

/-- No accepted CSR write touches a memory. -/
@[simp] theorem State.csrStore_bsmem (s : State) (r : Csr) (v : Word) : (s.csrStore r v).bsmem = s.bsmem := by
  cases r <;> rfl

@[simp] theorem State.csrStore_pixmem (s : State) (r : Csr) (v : Word) : (s.csrStore r v).pixmem = s.pixmem := by
  cases r <;> rfl

/-- Two states whose CSRs read alike but for the one at `off`, read alike at every other offset. -/
theorem State.csrRead_congr {s t : State} {other : Nat} (halign : other % 4 = 0) (hlt : other < 0x100)
    (h : ∀ q : Csr, other = q.offset → t.csrValue q = s.csrValue q) : t.csrRead 4 other = s.csrRead 4 other := by
  rcases offset_cases halign hlt with ⟨q, rfl⟩ | hreserved
  · rw [State.csrRead_offset, State.csrRead_offset, h q rfl]
  · rw [State.csrRead_reserved _ hreserved, State.csrRead_reserved _ hreserved]

/-- Settles O19: a reserved offset ignores the write; a CSR takes it by name. -/
theorem idleWriteReadsBack : Obligations.IdleWriteReadsBack := by
  intro s off v hidle halign hlt hstatus
  rcases offset_cases halign hlt with ⟨r, rfl⟩ | hreserved
  · have hwrite : s.csrWrite 4 r.offset v = .ok (s.csrStore r v) := by
      rw [s.csrWrite_offset, State.csrWriteAt_of_idle r v hidle]
    refine ⟨s.csrStore r v, hwrite, fun hr => ?_, fun hr => ?_, fun hr => ?_, fun hr hbsLen hbrBitPos => ?_,
      fun other hoalign holt hne hissue => ?_, by simp, by simp⟩
    · obtain rfl : r = .bsLen := Csr.offset_inj.1 hr
      exact State.csrRead_offset _ .bsLen
    · obtain rfl : r = .brBitPos := Csr.offset_inj.1 hr
      rw [State.csrRead_offset, s.csrValue_csrStore_brBitPos]
    · rcases hr with hresult | hreserved
      · exact Except.ok.inj (hwrite.symm.trans (s.csrWrite_result v hresult))
      · exact absurd hreserved r.not_reservedOffset_offset
    · rw [State.csrRead_offset, s.csrValue_csrStore_self r v (r.configOffset_offset.1 hr)
        (fun h => hbsLen (h ▸ rfl)) (fun h => hbrBitPos (h ▸ rfl))]
    · refine State.csrRead_congr hoalign holt fun q hq => s.csrValue_csrStore_of_ne v ?_ ?_
      · rintro rfl
        exact hne hq
      · rintro rfl rfl
        exact hissue rfl hq
  · have hnone (r : Csr) : off ≠ r.offset := fun h => r.not_reservedOffset_offset (h ▸ hreserved)
    refine ⟨s, s.csrWrite_reserved v hreserved, fun h => absurd h (hnone .bsLen), fun h => absurd h (hnone .brBitPos),
      fun _ => rfl, fun hconfig => ?_, fun _ _ _ _ _ => rfl, rfl, rfl⟩
    obtain ⟨r, hr, -⟩ := exists_held_of_configOffset hconfig
    exact absurd hr (hnone r)

/-! ## The step on a host access -/

section Access

variable {s t : State} {bytes addr off : Nat} {v : Word} {rest : List Input} {f : Fault}

theorem schedule_of_inputs_write (h : s.inputs = .write bytes addr v :: rest) :
    schedule s = hostWrite bytes addr v { s with inputs := rest } := by
  rw [schedule, h]

theorem schedule_of_inputs_read (h : s.inputs = .read bytes addr :: rest) :
    schedule s = hostRead bytes addr { s with inputs := rest } := by
  rw [schedule, h]

theorem schedule_of_inputs_wait (h : s.inputs = .wait :: rest) : schedule s = waitStep rest s := by
  rw [schedule, h]

/-- A step on a CSR write answers what `csrWrite` gives, with the input consumed. -/
theorem step_of_csrWrite_ok (hlaunch : s.launchOk) (hin : s.inputs = .write bytes addr v :: rest)
    (htarget : busTarget s.params addr = some (.csr off)) (hwrite : s.csrWrite bytes off v = .ok t) :
    step s = .next { t with inputs := rest } := by
  rw [step_of_launchOk hlaunch, schedule_of_inputs_write hin]
  simp [hostWrite, htarget, State.csrWrite_inputs, hwrite, Except.map]

theorem step_of_csrWrite_error (hlaunch : s.launchOk) (hin : s.inputs = .write bytes addr v :: rest)
    (htarget : busTarget s.params addr = some (.csr off)) (hwrite : s.csrWrite bytes off v = .error f) :
    step s = .fault f := by
  rw [step_of_launchOk hlaunch, schedule_of_inputs_write hin]
  simp [hostWrite, htarget, State.csrWrite_inputs, hwrite, Except.map]

/-- A step on a CSR read answers the value `csrRead` gives, and changes nothing else. -/
theorem step_of_csrRead_ok (hlaunch : s.launchOk) (hin : s.inputs = .read bytes addr :: rest)
    (htarget : busTarget s.params addr = some (.csr off)) (hread : s.csrRead bytes off = .ok v) :
    step s = .next { s with inputs := rest, lastRead := some v } := by
  rw [step_of_launchOk hlaunch, schedule_of_inputs_read hin]
  simp [hostRead, htarget, hread]

theorem step_of_csrRead_error (hlaunch : s.launchOk) (hin : s.inputs = .read bytes addr :: rest)
    (htarget : busTarget s.params addr = some (.csr off)) (hread : s.csrRead bytes off = .error f) :
    step s = .fault f := by
  rw [step_of_launchOk hlaunch, schedule_of_inputs_read hin]
  simp [hostRead, htarget, hread]

/-- A step on a one-byte read of BSMEM answers the byte, busy or not (`70_reset_and_hazards.md` R219). -/
theorem step_of_bsmem_read {i : Nat} (hlaunch : s.launchOk) (hin : s.inputs = .read 1 addr :: rest)
    (htarget : busTarget s.params addr = some (.bsmem i)) :
    step s = .next { s with inputs := rest, lastRead := some ((s.bsByte i).setWidth 32) } := by
  rw [step_of_launchOk hlaunch, schedule_of_inputs_read hin]
  simp [hostRead, htarget, State.bsByte]

/-- The same of a sample of PIXMEM. -/
theorem step_of_pixmem_read {i : Nat} (hlaunch : s.launchOk) (hin : s.inputs = .read 1 addr :: rest)
    (htarget : busTarget s.params addr = some (.pixmem i)) :
    step s = .next { s with inputs := rest, lastRead := some ((s.pixSample i).setWidth 32) } := by
  rw [step_of_launchOk hlaunch, schedule_of_inputs_read hin]
  simp [hostRead, htarget, State.pixSample]

end Access

/-- Settles O20: the CSR accesses by their kind, and the step on each. -/
theorem csrAccessesOutsideTheMap : Obligations.CsrAccessesOutsideTheMap := by
  intro s v
  refine ⟨fun off => s.csrRead_reserved, fun off => ?_, fun bytes off hbad => ?_,
    fun bytes addr off rest hlaunch htarget => ⟨fun hin => ⟨fun t => ?_, fun f => ?_, fun hbad => ?_⟩,
      fun hin => ⟨fun f => ?_, fun hbad => ?_⟩⟩⟩
  · rintro (hreserved | hresult)
    · exact s.csrWrite_reserved v hreserved
    · exact s.csrWrite_result v hresult
  · have hbad := csrAccessOk_eq_false.2 hbad
    exact ⟨s.csrRead_bad hbad, s.csrWrite_bad v hbad⟩
  · exact step_of_csrWrite_ok hlaunch hin htarget
  · exact step_of_csrWrite_error hlaunch hin htarget
  · exact step_of_csrWrite_error hlaunch hin htarget (s.csrWrite_bad v (csrAccessOk_eq_false.2 (by omega)))
  · exact step_of_csrRead_error hlaunch hin htarget
  · exact step_of_csrRead_error hlaunch hin htarget (s.csrRead_bad (csrAccessOk_eq_false.2 (by omega)))

/-- Settles O21, by the window the address lies in. -/
theorem hostReadsChangeNothing : Obligations.HostReadsChangeNothing := by
  intro s bytes addr rest hlaunch hin
  refine ⟨fun t hstep => ?_, fun off v htarget => step_of_csrRead_ok hlaunch hin htarget, ?_, ?_⟩
  · rw [step_of_launchOk hlaunch, schedule_of_inputs_read hin] at hstep
    exact hostRead_next hstep
  · rintro i htarget rfl
    exact step_of_bsmem_read hlaunch hin htarget
  · rintro i htarget rfl
    exact step_of_pixmem_read hlaunch hin htarget

/-- A step on a write to CMD issues the word while the block is idle (R36). -/
theorem step_of_cmd_write {s : State} {w : Word} {rest : List Input} (hlaunch : s.launchOk) (halone : csrAlone s.params 0)
    (hidle : s.status.busy = false) (hin : s.inputs = .write 4 s.params.csrBase w :: rest) :
    step s = .next { s.issue w with inputs := rest } := by
  have hwrite := s.csrWrite_offset .cmd w
  rw [State.csrWriteAt_of_idle .cmd w hidle] at hwrite
  exact step_of_csrWrite_ok hlaunch hin halone hwrite

/-- Settles O13: the write to CMD is the issue. -/
theorem cmdWriteIssues : Obligations.CmdWriteIssues := fun _ _ _ hlaunch halone hidle hin =>
  step_of_cmd_write hlaunch halone hidle hin

/-! ## The block's turn -/

section Turn

variable {s : State} {w : Word} {rest : List Input}

/-- While BUSY = 1 the block's step runs the word in PENDING (R39). -/
theorem blockStep_of_busy (hbusy : s.status.busy = true) (hpending : s.pending = some w) :
    blockStep s = runWord w s := by
  simp [blockStep, hbusy, hpending]

theorem runWord_of_decode_ok {i : Instr} (s : State) (h : decode w = .ok i) : runWord w s = exec i s := by
  rw [runWord, h]

/-- A word that is no command ends with ILLEGAL_CMD and nothing else (`30_encoding.md` R83, R84). -/
theorem runWord_of_decode_error {e : Reject} (s : State) (h : decode w = .error e) :
    runWord w s = .next (s.ended 8) := by
  rw [runWord, h]
  exact congrArg _ (s.fail_eq_ended .illegalCmd)

variable (hlaunch : s.launchOk) (hbusy : s.status.busy = true) (hpending : s.pending = some w)
include hlaunch hbusy hpending

/-- With no input left a busy block runs PENDING. -/
theorem step_of_busy_of_inputs_nil (hin : s.inputs = []) : step s = runWord w s := by
  rw [step_of_launchOk hlaunch, schedule_of_inputs_nil hin, blockStep_of_busy hbusy hpending]

/-- While the host waits a busy block runs PENDING, and the wait stays the next input (log 7). -/
theorem step_of_busy_of_inputs_wait (hin : s.inputs = .wait :: rest) : step s = runWord w s := by
  rw [step_of_launchOk hlaunch, schedule_of_inputs_wait hin, waitStep, if_pos hbusy, blockStep_of_busy hbusy hpending]

/-- Given its turn a busy block runs PENDING, with the input consumed. -/
theorem step_of_busy_of_inputs_complete (hin : s.inputs = .complete :: rest) :
    step s = runWord w { s with inputs := rest } := by
  rw [step_of_launchOk hlaunch, schedule_of_inputs_complete hin]
  exact blockStep_of_busy hbusy hpending

end Turn

/-- Settles O9, by the ways the block's turn comes. -/
theorem stepRunsThePendingCommand : Obligations.StepRunsThePendingCommand := by
  intro s w i hlaunch hbusy hpending hdecode
  refine ⟨fun hin => ?_, fun rest hin => ?_, fun rest hin => ?_⟩
  · rw [step_of_busy_of_inputs_nil hlaunch hbusy hpending hin, runWord_of_decode_ok s hdecode]
  · rw [step_of_busy_of_inputs_wait hlaunch hbusy hpending hin, runWord_of_decode_ok s hdecode]
  · rw [step_of_busy_of_inputs_complete hlaunch hbusy hpending hin, runWord_of_decode_ok _ hdecode]

/-- Settles O12: the step is a completion, whatever the word. -/
theorem busyBlockCompletesInOneStep : Obligations.BusyBlockCompletesInOneStep := by
  intro s w hlaunch hbusy hpending
  refine ⟨fun hin => ?_, fun e hdecode => ⟨fun hin => ?_, fun rest hin => ?_, fun rest hin => ?_⟩⟩
  · rw [step_of_busy_of_inputs_nil hlaunch hbusy hpending hin, runWord_eq]
    exact ⟨_, rfl, s.status_complete_eq_after _, s.errCode_complete_le _, rfl, s.sameConfig_complete _⟩
  · rw [step_of_busy_of_inputs_nil hlaunch hbusy hpending hin, runWord_of_decode_error s hdecode]
  · rw [step_of_busy_of_inputs_wait hlaunch hbusy hpending hin, runWord_of_decode_error s hdecode]
  · rw [step_of_busy_of_inputs_complete hlaunch hbusy hpending hin, runWord_of_decode_error _ hdecode]

/-! ## Issue and completion, and what no step does -/

/-- Settles O14: the CMD write issues the word, and the block's turn runs it. -/
theorem issuedCommandRunsNext : Obligations.IssuedCommandRunsNext := by
  intro s i rest hlaunch hwf halone hidle hin
  have hissue := step_of_cmd_write hlaunch halone hidle hin
  obtain ⟨-, -, hturn⟩ := stepRunsThePendingCommand { s.issue (encode i) with inputs := .complete :: rest } (encode i) i
    hlaunch rfl rfl (decode_encode hwf)
  exact ⟨_, _, hissue, rfl, rfl, exec_eq i _, (hturn rest rfl).trans (exec_eq i _)⟩

/-! ### The constants (R20, R41) -/

/-- A CSR write changes no table and no parameter. -/
theorem State.csrWriteAt_constants (s : State) (r : Csr) (v : Word) :
    (s.csrWriteAt r v).tzTable = s.tzTable ∧ (s.csrWriteAt r v).rbTable = s.rbTable ∧
      (s.csrWriteAt r v).params = s.params := by
  unfold State.csrWriteAt
  split
  · exact ⟨rfl, rfl, rfl⟩
  · cases r <;> exact ⟨rfl, rfl, rfl⟩

/-- Settles O29, by the ways a step can go. -/
theorem noStepChangesTheTables : Obligations.NoStepChangesTheTables := by
  intro s t hstep
  obtain ⟨-, hmoved⟩ := step_next hstep
  cases hmoved with
  | block rest w hbusy hpending => simp
  | csr rest r v => exact State.csrWriteAt_constants _ r v
  | read | ignored | bsmem | pixmem | reset => exact ⟨rfl, rfl, rfl⟩

/-! ### Before the completion (R37, R38) -/

/-- A CSR write to a busy block changes ERR and BUSYERR at most. -/
theorem State.csrWriteAt_of_busy {s : State} (r : Csr) (v : Word) (hbusy : s.status.busy = true) :
    ∃ err busyErr, s.csrWriteAt r v = { s with status := { s.status with err := err, busyErr := busyErr } } := by
  cases hheld : r.heldWhileBusy with
  | true => exact ⟨s.status.err, true, State.csrWriteAt_of_busy_of_held v hbusy hheld⟩
  | false =>
    have hstore : s.csrWriteAt r v = s.csrStore r v := by simp [State.csrWriteAt, hheld]
    rw [hstore]
    cases r with
    | status => exact ⟨_, _, rfl⟩
    | result0 | result1 | result2 => exact ⟨s.status.err, s.status.busyErr, rfl⟩
    | _ => cases hheld

/-- Settles O31: a step that leaves the block busy is a read, an ignored write, or a CSR write. -/
theorem nothingIsWrittenBeforeCompletion : Obligations.NothingIsWrittenBeforeCompletion := by
  intro s t hbusy hstep hstill
  obtain ⟨-, hmoved⟩ := step_next hstep
  cases hmoved with
  | block rest w _ _ => simp at hstill
  | read | ignored => simp [State.cursor]
  | csr rest r v =>
    obtain ⟨err, busyErr, hwrite⟩ := State.csrWriteAt_of_busy (s := { s with inputs := rest }) r v hbusy
    rw [hwrite]
    simp [State.cursor]
  | bsmem rest i b _ hidle => simp [hbusy] at hidle
  | pixmem rest i b _ hidle => simp [hbusy] at hidle
  | reset rest => simp [Status.zero] at hstill

/-! ### The sticky bits (R25) -/

/-- ERR and BUSYERR, where set, are still set. -/
def Status.KeepsSticky (old new : Status) : Prop :=
  (old.err = true → new.err = true) ∧ (old.busyErr = true → new.busyErr = true)

theorem Status.keepsSticky_refl (st : Status) : st.KeepsSticky st := ⟨id, id⟩
theorem Status.keepsSticky_issue (st : Status) : st.KeepsSticky st.issue := ⟨id, id⟩
theorem Status.keepsSticky_dropped (st : Status) : st.KeepsSticky st.dropped := ⟨id, fun _ => rfl⟩
theorem Status.keepsSticky_complete (st : Status) (c : ErrCode) : st.KeepsSticky (st.complete c) :=
  ⟨fun h => by simp [h], id⟩

/-- Only a write to STATUS clears a sticky bit. -/
theorem State.keepsSticky_csrWriteAt (s : State) {r : Csr} (v : Word) (hr : r ≠ .status) :
    s.status.KeepsSticky (s.csrWriteAt r v).status := by
  unfold State.csrWriteAt
  split
  · exact s.status.keepsSticky_dropped
  · cases r with
    | cmd => exact s.status.keepsSticky_issue
    | status => exact absurd rfl hr
    | _ => exact s.status.keepsSticky_refl

/-- What a CSR write does to the sticky bits: it keeps them, or it is the write to STATUS. -/
theorem State.csrWrite_sticky {s t : State} {bytes off : Nat} {v : Word} (h : s.csrWrite bytes off v = .ok t) :
    s.status.KeepsSticky t.status ∨ (bytes = 4 ∧ off = 0x04 ∧ t.status = s.status.clear v) := by
  obtain ⟨hok, ⟨-, rfl⟩ | ⟨r, hr, rfl⟩⟩ := State.csrWrite_ok h
  · exact .inl t.status.keepsSticky_refl
  · by_cases hstatus : r = .status
    · subst hstatus
      exact .inr ⟨(csrAccessOk_eq_true.1 hok).1, csrAt_eq_some.1 hr, by rw [s.csrWriteAt_status]⟩
    · exact .inl (s.keepsSticky_csrWriteAt v hstatus)

/-- A host write that answers a state is a CSR write at the offset its address names, or leaves STATUS as it is. -/
theorem hostWrite_csr_or_status {bytes addr : Nat} {v : Word} {s t : State} (h : hostWrite bytes addr v s = .next t) :
    (∃ off, busTarget s.params addr = some (.csr off) ∧ s.csrWrite bytes off v = .ok t) ∨ t.status = s.status := by
  unfold hostWrite at h
  split at h
  · cases h
  · rename_i off htarget
    split at h
    · rename_i hwrite
      cases h
      exact .inl ⟨off, htarget, hwrite⟩
    · cases h
  · split at h
    · cases h
    · split at h <;> cases h
      exact .inr rfl
  · split at h
    · cases h
    · split at h <;> cases h
      exact .inr rfl

/-- What the block's step does to the sticky bits: a completion may set ERR. -/
theorem blockStep_sticky {s t : State} (h : blockStep s = .next t) : s.status.KeepsSticky t.status := by
  obtain ⟨-, w, -, rfl⟩ := blockStep_next h
  rw [State.complete_status]
  exact s.status.keepsSticky_complete _

/-- What a step does to the sticky bits: it keeps them, unless its input is reset or a write to STATUS. -/
theorem step_sticky {s t : State} (h : step s = .next t) :
    s.status.KeepsSticky t.status ∨ (∃ rest, s.inputs = .reset :: rest) ∨
      ∃ addr v rest, s.inputs = .write 4 addr v :: rest ∧ busTarget s.params addr = some (.csr 0x04) ∧
        t.status = s.status.clear v := by
  rw [step_of_launchOk (step_next h).1] at h
  cases hin : s.inputs with
  | nil =>
    rw [schedule_of_inputs_nil hin] at h
    exact .inl (blockStep_sticky h)
  | cons input rest =>
    cases input with
    | read bytes addr =>
      rw [schedule_of_inputs_read hin] at h
      obtain ⟨value, rfl⟩ := hostRead_next h
      exact .inl s.status.keepsSticky_refl
    | write bytes addr v =>
      rw [schedule_of_inputs_write hin] at h
      rcases hostWrite_csr_or_status h with ⟨off, htarget, hwrite⟩ | hsame
      · rcases State.csrWrite_sticky hwrite with hkeeps | ⟨rfl, rfl, hclear⟩
        · exact .inl hkeeps
        · exact .inr (.inr ⟨addr, v, rest, rfl, htarget, hclear⟩)
      · exact .inl (hsame ▸ s.status.keepsSticky_refl)
    | wait =>
      rw [schedule_of_inputs_wait hin, waitStep] at h
      split at h
      · exact .inl (blockStep_sticky h)
      · cases h
        exact .inl s.status.keepsSticky_refl
    | complete =>
      rw [schedule_of_inputs_complete hin] at h
      exact .inl (blockStep_sticky (s := { s with inputs := rest }) h)
    | reset => exact .inr (.inl ⟨rest, rfl⟩)

/-- Settles O30: a step that does not keep the sticky bits is a reset or a write to STATUS, which clears by its bits. -/
theorem stickyBitsClearOnlyByHost : Obligations.StickyBitsClearOnlyByHost := by
  intro s t hstep
  rcases step_sticky hstep with ⟨herr, hbusyErr⟩ | hreset | ⟨addr, v, rest, hin, htarget, hstatus⟩
  · exact ⟨fun hset hclear => by simp [herr hset] at hclear, fun hset hclear => by simp [hbusyErr hset] at hclear⟩
  · exact ⟨fun _ _ => .inl hreset, fun _ _ => .inl hreset⟩
  · rw [hstatus]
    exact ⟨fun hset hclear => .inr ⟨addr, v, rest, hin, htarget, by simpa [hset] using hclear⟩,
      fun hset hclear => .inr ⟨addr, v, rest, hin, htarget, by simpa [hset] using hclear⟩⟩

end Sys2Proof.Machine

/-! The memories (`20_memory.md`): a host write of one byte, the stream as bits and as one number, and the window check, each
with the lemmas it needs, then the obligations of that family. -/

namespace Sys2Proof.Machine

open Sys2Proof.Claims

/-! ## What a memory reads as after one byte is written (R72) -/

/-- A byte written to BSMEM reads back, and every other byte as before. -/
theorem State.bsByte_write (s : State) (l : List Input) (i : Nat) (b : Byte) (a : Nat) :
    State.bsByte { s with inputs := l, bsmem := s.bsmem.write i b } a = if i = a then b else s.bsByte a := by
  simp only [State.bsByte, Memory.byteAt_write]
  split <;> rfl

/-- The same of a sample of PIXMEM. -/
theorem State.pixSample_write (s : State) (l : List Input) (i : Nat) (b : Byte) (a : Nat) :
    State.pixSample { s with inputs := l, pixmem := s.pixmem.write i b } a = if i = a then b else s.pixSample a := by
  simp only [State.pixSample, Memory.byteAt_write]
  split <;> rfl

/-! ## The step on a one-byte host write to a memory (R72, R76) -/

section MemoryWrite

variable {s : State} {addr i : Nat} {v : Word} {rest : List Input}
variable (hlaunch : s.launchOk) (hin : s.inputs = .write 1 addr v :: rest)
include hlaunch hin

/-- While BUSY = 1 a host write to either memory is HostRace. -/
theorem step_of_memory_write_of_busy
    (htarget : busTarget s.params addr = some (.bsmem i) ∨ busTarget s.params addr = some (.pixmem i))
    (hbusy : s.status.busy = true) : step s = .fault .hostRace := by
  rw [step_of_launchOk hlaunch, schedule_of_inputs_write hin]
  rcases htarget with htarget | htarget <;> simp [hostWrite, htarget, hbusy]

/-- On an idle block a write to BSMEM writes the byte. -/
theorem step_of_bsmem_write (htarget : busTarget s.params addr = some (.bsmem i)) (hidle : s.status.busy = false) :
    step s = .next { s with inputs := rest, bsmem := s.bsmem.write i (v.setWidth 8) } := by
  rw [step_of_launchOk hlaunch, schedule_of_inputs_write hin]
  simp [hostWrite, htarget, hidle]

/-- On an idle block a write to PIXMEM writes the sample. -/
theorem step_of_pixmem_write (htarget : busTarget s.params addr = some (.pixmem i)) (hidle : s.status.busy = false) :
    step s = .next { s with inputs := rest, pixmem := s.pixmem.write i (v.setWidth 8) } := by
  rw [step_of_launchOk hlaunch, schedule_of_inputs_write hin]
  simp [hostWrite, htarget, hidle]

end MemoryWrite

/-- Settles O22: a race while busy; while idle, by the memory the address lies in. The byte is the value's low 8 bits
(log 19). -/
theorem hostMemoryWriteIsOneByteOrRace : Obligations.HostMemoryWriteIsOneByteOrRace := by
  intro s addr i v rest hlaunch hin htarget
  refine ⟨step_of_memory_write_of_busy hlaunch hin htarget, fun hidle => ?_⟩
  rcases htarget with hbs | hpix
  · refine ⟨_, step_of_bsmem_write hlaunch hin hbs hidle, rfl, fun _ => ⟨?_, fun a ha => ?_, fun _ => rfl⟩,
      fun hpix => absurd (hbs.symm.trans hpix) (by simp)⟩
    · rw [State.bsByte_write, if_pos rfl, BitVec.toNat_setWidth]
    · rw [State.bsByte_write, if_neg ha.symm]
  · refine ⟨_, step_of_pixmem_write hlaunch hin hpix hidle, rfl, fun hbs => absurd (hbs.symm.trans hpix) (by simp),
      fun _ => ⟨?_, fun a ha => ?_, fun _ => rfl⟩⟩
    · rw [State.pixSample_write, if_pos rfl, BitVec.toNat_setWidth]
    · rw [State.pixSample_write, if_neg ha.symm]

/-! ## The stream, bit by bit (R62, R63) -/

/-- A stream bit is a bit of its byte. -/
theorem State.bsBit_eq (s : State) (p : Nat) : s.bsBit p = ((s.bsByte (p / 8)).getLsbD (p % 8)).toNat := by
  rw [State.bsBit, BitVec.getLsbD, Nat.toNat_testBit, Nat.shiftRight_eq_div_pow]

/-- A read of `n + 1` bits has its last bit above the `n` before it. -/
theorem State.bsBits_succ (s : State) (p n : Nat) :
    s.bsBits p (n + 1) = 2 ^ n * s.bsBit (p + n) + s.bsBits p n := by
  rw [State.bsBits, Nat.shiftLeft_eq, Nat.add_comm, Nat.mul_comm]

/-- Bit `k` of a read at `p` is stream bit `p + k`. -/
theorem State.testBit_bsBits (s : State) (p n k : Nat) :
    (s.bsBits p n).testBit k = (decide (k < n) && (s.bsByte ((p + k) / 8)).getLsbD ((p + k) % 8)) := by
  induction n with
  | zero => simp [State.bsBits]
  | succ n ih =>
    rw [State.bsBits_succ, Nat.testBit_two_pow_mul_add _ (s.bsBits_lt p n), s.bsBit_eq, Nat.testBit_bool_toNat]
    rcases Nat.lt_trichotomy k n with hlt | rfl | hgt
    · simp [ih, hlt, Nat.lt_succ_of_lt hlt]
    · simp
    · rw [if_neg (by omega), decide_eq_false (by omega), decide_eq_false (by omega), Bool.false_and, Bool.false_and]

/-- Settles O40: the bound of a read, and its bits. -/
theorem firstBitReadIsBitZero : Obligations.FirstBitReadIsBitZero := fun s p n k =>
  ⟨s.bsBits_lt p n, s.testBit_bsBits p n k⟩

/-! ## The stream as one little-endian number (R64) -/

/-- Eight bits at a byte boundary are that byte. -/
theorem State.bsBits_byte (s : State) (a : Nat) : s.bsBits (8 * a) 8 = (s.bsByte a).toNat := by
  apply Nat.eq_of_testBit_eq
  intro k
  rw [State.testBit_bsBits, BitVec.testBit_toNat]
  by_cases hk : k < 8
  · have hbyte : (8 * a + k) / 8 = a := by omega
    have hbit : (8 * a + k) % 8 = k := by omega
    simp [hk, hbyte, hbit]
  · simp [hk, BitVec.getLsbD_of_ge _ _ (Nat.not_lt.1 hk)]

/-- The number the first `k` bytes form is the read of all their bits. -/
theorem littleEndian_eq_bsBits (s : State) (k : Nat) : littleEndian s k = s.bsBits 0 (8 * k) := by
  induction k with
  | zero => rfl
  | succ k ih => rw [littleEndian, ih, Nat.mul_succ, State.bsBits_add, Nat.zero_add, State.bsBits_byte]

/-- A read at `p` is what is left of a longer read from 0 after its first `p` bits. -/
theorem State.bsBits_zero_div (s : State) (p m : Nat) : s.bsBits 0 (p + m) / 2 ^ p = s.bsBits p m := by
  rw [State.bsBits_add, Nat.zero_add, Nat.add_mul_div_right _ _ (Nat.two_pow_pos p),
    Nat.div_eq_of_lt (s.bsBits_lt 0 p), Nat.zero_add]

/-- A 32-bit read at a byte boundary is four bytes, the first in the low-order bits. -/
theorem State.bsBits_word (s : State) (a : Nat) :
    s.bsBits (8 * a) 32 = (s.bsByte a).toNat + (s.bsByte (a + 1)).toNat * 2 ^ 8 + (s.bsByte (a + 2)).toNat * 2 ^ 16 +
      (s.bsByte (a + 3)).toNat * 2 ^ 24 := by
  rw [s.bsBits_add (8 * a) 24 8, s.bsBits_add (8 * a) 16 8, s.bsBits_add (8 * a) 8 8]
  simp only [← State.bsBits_byte, Nat.mul_add]

/-- Settles O41: the number is a read from 0, cut at both ends of the field. -/
theorem streamIsOneLittleEndianNumber : Obligations.StreamIsOneLittleEndianNumber := by
  refine ⟨fun s p n hfits => ?_, fun s a _ => s.bsBits_word a⟩
  obtain ⟨m, hm⟩ := Nat.exists_eq_add_of_le hfits
  calc s.bsBits p n
      = s.bsBits p (n + m) % 2 ^ n := (s.bsBits_mod p n m).symm
    _ = s.bsBits 0 (p + (n + m)) / 2 ^ p % 2 ^ n := by rw [s.bsBits_zero_div]
    _ = littleEndian s s.bsLen.toNat / 2 ^ p % 2 ^ n := by
      rw [littleEndian_eq_bsBits, ← streamEnd, hm, Nat.add_assoc]

/-! ## The window check (R68) -/

/-- The check is the formula of R68. -/
theorem Overlay.winOk_iff_placed (o : Overlay) (size : Nat) (x y : Int) :
    o.winOk size x y = true ↔ placed o size x y := by
  simp only [Overlay.winOk, Bool.and_eq_true, decide_eq_true_eq, and_assoc]
  exact Iff.rfl

/-- Settles O54: the check is the formula, and it puts every sample inside. -/
theorem windowCheckKeepsSamplesInside : Obligations.WindowCheckKeepsSamplesInside := fun o size x y =>
  ⟨o.winOk_iff_placed size x y, fun hplaced i j hj hi =>
    o.winOk_inside size x y ((o.winOk_iff_placed size x y).2 hplaced) j i hj hi⟩

end Sys2Proof.Machine

/-! The encoding of the commands (`30_encoding.md`): the fields of a word, the rows of the opcode map and what the decoder
answers by them, the shift codes, SEEK and WAIT, with the obligations of that family. -/

namespace Sys2Proof

open Sys2Proof.Claims

/-! ## The fields of a word (R80, R82) -/

theorem wordField_eq (w : Word) (lo len : Nat) : wordField w lo len = w.toNat / 2 ^ lo % 2 ^ len := by
  rw [wordField, BitVec.extractLsb'_toNat, Nat.shiftRight_eq_div_pow]

theorem wordField_lt (w : Word) (lo len : Nat) : wordField w lo len < 2 ^ len := BitVec.isLt _

/-- A field of no bits is 0. -/
@[simp] theorem wordField_zero (w : Word) (lo : Nat) : wordField w lo 0 = 0 := by
  rw [wordField_eq, Nat.pow_zero, Nat.mod_one]

theorem opcodeOf_eq (w : Word) : opcodeOf w = w.toNat % 256 := by
  simp [opcodeOf, wordField_eq]

/-- Put back at its place, a field is the word with every other bit cleared. -/
theorem ofNat_wordField_shiftLeft (w : Word) (lo len : Nat) :
    BitVec.ofNat 32 (wordField w lo len) <<< lo = w &&& (BitVec.ofNat 32 (2 ^ len - 1) <<< lo) := by
  apply BitVec.eq_of_getLsbD_eq
  intro k hk
  simp only [wordField, BitVec.getLsbD_and, BitVec.getLsbD_shiftLeft, BitVec.getLsbD_ofNat, BitVec.testBit_toNat,
    BitVec.getLsbD_extractLsb', Nat.testBit_two_pow_sub_one]
  by_cases hlo : k < lo
  · simp [hlo]
  · have hbit : lo + (k - lo) = k := by omega
    rw [hbit]
    ac_rfl

/-- The word assembled from A, B and C fields of another word is that word's bits of those fields, with the OP byte. -/
theorem commandWord_wordField (w : Word) (op a b c : Nat) :
    commandWord op (wordField w 8 a) (wordField w 16 b) (wordField w 24 c) = BitVec.ofNat 32 op |||
      (w &&& (BitVec.ofNat 32 (2 ^ c - 1) <<< 24 ||| BitVec.ofNat 32 (2 ^ b - 1) <<< 16 |||
        BitVec.ofNat 32 (2 ^ a - 1) <<< 8)) := by
  rw [commandWord, ofNat_wordField_shiftLeft, ofNat_wordField_shiftLeft, ofNat_wordField_shiftLeft, BitVec.or_comm,
    BitVec.and_or_distrib_left, BitVec.and_or_distrib_left]

/-- The shift a 2-bit code names has that code (R87, R89). -/
theorem bits_shiftCodeOf {b : Nat} (h : b < 4) : (shiftCodeOf b).bits = b := by
  interval_cases b <;> rfl

/-- C[3:0] is the dy code above the dx code (R87). -/
theorem wordField_shiftCodes (w : Word) : wordField w 26 2 * 4 + wordField w 24 2 = wordField w 24 4 := by
  simp only [wordField_eq]
  omega

/-! ## The rows of the opcode map (R81) -/

/-- The OP bytes of the rows, in order. -/
theorem opTable_opcodes : opTable.map (fun r => r.pattern.toNat % 256) = assignedOpcodes := by decide

theorem opcode_mem {r : OpRow} (hr : r ∈ opTable) : r.pattern.toNat % 256 ∈ assignedOpcodes :=
  opTable_opcodes ▸ List.mem_map_of_mem hr

theorem opcodeAssigned_iff {op : Nat} : opcodeAssigned op = true ↔ op ∈ assignedOpcodes := by
  simp [opcodeAssigned, opcodeOf_eq, ← opTable_opcodes]

/-- No two rows have the same OP byte. -/
theorem opTable_index_unique {j k : Nat} {r q : OpRow} (hr : opTable[j]? = some r) (hq : opTable[k]? = some q)
    (hop : r.pattern.toNat % 256 = q.pattern.toNat % 256) : j = k := by
  have hnodup : (opTable.map fun r => r.pattern.toNat % 256).Nodup := by decide
  have hj : j < opTable.length := (List.getElem?_eq_some_iff.1 hr).1
  exact (List.getElem?_inj (by simpa using hj) hnodup).1 (by simp [hr, hq, hop])

theorem opTable_row_unique {r q : OpRow} (hr : r ∈ opTable) (hq : q ∈ opTable)
    (hop : r.pattern.toNat % 256 = q.pattern.toNat % 256) : r = q := by
  obtain ⟨j, hj⟩ := List.getElem?_of_mem hr
  obtain ⟨k, hk⟩ := List.getElem?_of_mem hq
  obtain rfl := opTable_index_unique hj hk hop
  exact Option.some.inj (hj.symm.trans hk)

/-- A row tests the whole OP byte and the operand bits its command does not use, and wants the latter 0 (R81, R83). -/
theorem opTable_bits : ∀ r ∈ opTable, (∀ k < 8, r.mask.getLsbD k = true) ∧ ∀ k < 32, 8 ≤ k →
    r.mask.getLsbD k = decide (k ∉ usedBits (r.pattern.toNat % 256)) ∧ r.pattern.getLsbD k = false := by decide

/-- Two words have one OP byte when they agree in their low eight bits. -/
theorem hasOpcode_iff_bits (w v : Word) : hasOpcode w (v.toNat % 256) ↔ ∀ k < 8, w.getLsbD k = v.getLsbD k := by
  have bit (u : Word) (k : Nat) : (u.toNat % 256).testBit k = (decide (k < 8) && u.getLsbD k) :=
    Nat.testBit_mod_two_pow u.toNat 8 k
  unfold hasOpcode
  constructor
  · intro h k hk
    have hbit := bit w k
    rw [h, bit v k] at hbit
    simpa [hk] using hbit.symm
  · intro h
    refine Nat.eq_of_testBit_eq fun k => ?_
    rw [bit, bit]
    by_cases hk : k < 8
    · rw [h k hk]
    · simp [hk]

/-- A word is a row's exactly when it has the row's OP byte and no reserved bit set. -/
theorem matches_iff {r : OpRow} (hr : r ∈ opTable) (w : Word) : w &&& r.mask = r.pattern ↔
    hasOpcode w (r.pattern.toNat % 256) ∧ ¬reservedBitSet (r.pattern.toNat % 256) w := by
  obtain ⟨hlow, hhigh⟩ := opTable_bits r hr
  rw [hasOpcode_iff_bits, BitVec.eq_of_getLsbD_eq_iff]
  simp only [BitVec.getLsbD_and]
  constructor
  · intro h
    refine ⟨fun k hk => ?_, fun ⟨k, hk, hk32, hunused, hset⟩ => ?_⟩
    · simpa [hlow k hk] using h k (by omega)
    · obtain ⟨hmask, hpattern⟩ := hhigh k hk32 hk
      simpa [hmask, hpattern, hunused, hset] using h k hk32
  · intro ⟨hop, hreserved⟩ k hk32
    by_cases hk : k < 8
    · rw [hlow k hk, Bool.and_true, hop k hk]
    · obtain ⟨hmask, hpattern⟩ := hhigh k hk32 (by omega)
      rw [hmask, hpattern, Bool.and_eq_false_imp]
      exact fun hset => decide_eq_false fun hunused => hreserved ⟨k, by omega, hk32, hunused, hset⟩

/-! ## What a row builds (R82, R87) -/

/-- What a row reads assembles to the row's pattern with the word's untested bits. -/
theorem encode_build (w : Word) : ∀ r ∈ opTable, encode (r.build w) = r.pattern ||| (w &&& ~~~r.mask) := by
  have row := commandWord_wordField w
  simp only [opTable, List.forall_mem_cons, encode, bits_shiftCodeOf (wordField_lt w _ 2), wordField_shiftCodes]
  exact ⟨by simpa using row 0x00 0 0 0, by simpa using row 0x01 0 0 0, by simpa using row 0x02 6 0 0,
    by simpa using row 0x03 6 0 0, by simpa using row 0x10 4 4 0, by simpa using row 0x11 0 4 0,
    by simpa using row 0x12 4 4 0, by simpa using row 0x13 0 4 0, by simpa using row 0x14 0 0 0,
    by simpa using row 0x20 2 2 0, by simpa using row 0x21 2 2 0, by simpa using row 0x22 2 2 4, by simp⟩

/-- What a row reads fits its fields. -/
theorem wf_build (w : Word) : ∀ r ∈ opTable, (r.build w).wf = true := by
  have hcount : wordField w 8 6 < 64 := wordField_lt w 8 6
  have hsymbol (lo : Nat) : wordField w lo 4 < 16 := wordField_lt w lo 4
  have hoverlay (lo : Nat) : wordField w lo 2 < 4 := wordField_lt w lo 2
  simp [opTable, Instr.wf, countOk, symbolOk, overlayOk, hcount, hsymbol, hoverlay]

/-- Each operand of the command is the field of the word that R82 gives for it. -/
def Instr.ReadFrom (w : Word) : Instr → Prop
  | .nop | .rdbit | .dec1 => True
  | .rdbits n | .pkbits n => n = w.toNat / 2 ^ 8 % 64
  | .encTz a b | .encRb a b => a = w.toNat / 2 ^ 8 % 16 ∧ b = w.toNat / 2 ^ 16 % 16
  | .decTz b | .decRb b => b = w.toNat / 2 ^ 16 % 16
  | .ssd p q | .ssdb p q => p = w.toNat / 2 ^ 8 % 4 ∧ q = w.toNat / 2 ^ 16 % 4
  | .hpel s d dx dy => s = w.toNat / 2 ^ 8 % 4 ∧ d = w.toNat / 2 ^ 16 % 4 ∧
      dx.bits = w.toNat / 2 ^ 24 % 4 ∧ dy.bits = w.toNat / 2 ^ 26 % 4

theorem readFrom_build (w : Word) : ∀ r ∈ opTable, (r.build w).ReadFrom w := by
  simp only [opTable, List.forall_mem_cons, Instr.ReadFrom, bits_shiftCodeOf (wordField_lt w _ 2)]
  simp [wordField_eq]

/-! ## What the decoder answers (R83, R84, R86) -/

/-- The one row a word matches decodes it. -/
theorem decode_of_matches {w : Word} {r : OpRow} (hr : r ∈ opTable) (hmatch : w &&& r.mask = r.pattern) :
    decode w = .ok (r.build w) := by
  unfold decode
  cases hfind : opTable.find? (fun r => r.matchesWord w) with
  | none => exact absurd hmatch (by simpa [OpRow.matchesWord] using List.find?_eq_none.1 hfind r hr)
  | some q =>
    have hq : q ∈ opTable := List.mem_of_find?_eq_some hfind
    have hqmatch : w &&& q.mask = q.pattern := by simpa [OpRow.matchesWord] using List.find?_some hfind
    have hop : r.pattern.toNat % 256 = q.pattern.toNat % 256 :=
      ((matches_iff hr w).1 hmatch).1.symm.trans ((matches_iff hq w).1 hqmatch).1
    rw [opTable_row_unique hr hq hop]

/-- A word that matches no row is rejected, by whether its OP byte is assigned. -/
theorem decode_of_no_row {w : Word} (h : ∀ r ∈ opTable, w &&& r.mask ≠ r.pattern) :
    decode w = .error (if w.toNat % 256 ∈ assignedOpcodes then .reservedBitSet else .unassignedOpcode) := by
  have hfind : opTable.find? (fun r => r.matchesWord w) = none :=
    List.find?_eq_none.2 fun r hr => by simpa [OpRow.matchesWord] using h r hr
  simp [decode, hfind, opcodeAssigned_iff, opcodeOf_eq]

/-- Everything a decoded command can be: what a row the word matches reads. -/
theorem decode_eq_ok {w : Word} {i : Instr} (h : decode w = .ok i) :
    ∃ r ∈ opTable, w &&& r.mask = r.pattern ∧ i = r.build w := by
  by_cases hrow : ∃ r ∈ opTable, w &&& r.mask = r.pattern
  · obtain ⟨r, hr, hmatch⟩ := hrow
    rw [decode_of_matches hr hmatch] at h
    cases h
    exact ⟨r, hr, hmatch, rfl⟩
  · rw [decode_of_no_row fun r hr hmatch => hrow ⟨r, hr, hmatch⟩] at h
    cases h

theorem readFrom_of_decode {w : Word} {i : Instr} (h : decode w = .ok i) : i.ReadFrom w := by
  obtain ⟨r, hr, -, rfl⟩ := decode_eq_ok h
  exact readFrom_build w r hr

/-! ## The obligations of the words -/

/-- Settles O1: the words of R87, shape by shape. -/
theorem decodeOfEncodeIsTheCommand : Obligations.DecodeOfEncodeIsTheCommand := fun _ => decode_encode

/-- Settles O2: the command is what a row reads, and its word has the row's tested bits and the word's untested ones. -/
theorem encodeOfDecodeIsTheWord : Obligations.EncodeOfDecodeIsTheWord := by
  intro w i hdecode
  obtain ⟨r, hr, hmatch, rfl⟩ := decode_eq_ok hdecode
  refine ⟨wf_build w r hr, ?_⟩
  calc encode (r.build w)
      = r.pattern ||| (w &&& ~~~r.mask) := encode_build w r hr
    _ = w := by rw [← hmatch, ← BitVec.and_or_distrib_left, BitVec.or_not_self, BitVec.and_allOnes]

/-- Settles O3: the OP byte a matching row shares with the word singles the row out. -/
theorem everyWordIsOneRowOrIllegal : Obligations.EveryWordIsOneRowOrIllegal := by
  refine ⟨fun j k r q hr hq hne hop => hne (opTable_index_unique hr hq hop), fun w => ?_⟩
  by_cases hrow : ∃ r ∈ opTable, w &&& r.mask = r.pattern
  · obtain ⟨r, hr, hmatch⟩ := hrow
    obtain ⟨k, hk⟩ := List.getElem?_of_mem hr
    refine .inl ⟨k, r, hk, hmatch, decode_of_matches hr hmatch, fun j q hj hqmatch => ?_⟩
    have hop := ((matches_iff hr w).1 hmatch).1
    have hqop := ((matches_iff (List.mem_of_getElem? hj) w).1 hqmatch).1
    exact opTable_index_unique hj hk (hqop.symm.trans hop)
  · have hnone : ∀ r ∈ opTable, w &&& r.mask ≠ r.pattern := fun r hr hmatch => hrow ⟨r, hr, hmatch⟩
    exact .inr ⟨hnone, fun s => Machine.runWord_of_decode_error s (decode_of_no_row hnone)⟩

/-- Settles O5: a row would give the word an assigned OP byte. -/
theorem unassignedOpcodeFailsIllegal : Obligations.UnassignedOpcodeFailsIllegal := by
  intro w s op hop hrange
  have hunassigned : w.toNat % 256 ∉ assignedOpcodes := by
    rw [hop]
    simp only [assignedOpcodes, List.mem_cons, List.not_mem_nil, or_false]
    omega
  have hdecode : decode w = .error .unassignedOpcode := by
    rw [decode_of_no_row, if_neg hunassigned]
    intro r hr hmatch
    have hrop : w.toNat % 256 = r.pattern.toNat % 256 := ((matches_iff hr w).1 hmatch).1
    exact hunassigned (hrop ▸ opcode_mem hr)
  exact ⟨hdecode, Machine.runWord_of_decode_error s hdecode⟩

/-- Settles O6: only the opcode's own row could match, and it tests the reserved bits. -/
theorem reservedBitFailsIllegal : Obligations.ReservedBitFailsIllegal := by
  intro w s op hassigned hop hreserved
  have hdecode : decode w = .error .reservedBitSet := by
    rw [decode_of_no_row, if_pos (hop ▸ hassigned)]
    intro r hr hmatch
    obtain ⟨hrop, hclear⟩ := (matches_iff hr w).1 hmatch
    obtain rfl := hop.symm.trans hrop
    exact hclear hreserved
  exact ⟨hdecode, Machine.runWord_of_decode_error s hdecode⟩

/-- Settles O7: each row reads its operands from R82's fields. -/
theorem operandsAreTheirFields : Obligations.OperandsAreTheirFields := by
  intro w
  refine ⟨?_, ?_, ?_, ?_, fun _ _ _ _ => readFrom_of_decode⟩
  · exact fun _ h => h.elim readFrom_of_decode readFrom_of_decode
  · exact fun _ _ h => h.elim readFrom_of_decode readFrom_of_decode
  · exact fun _ h => h.elim readFrom_of_decode readFrom_of_decode
  · exact fun _ _ h => h.elim readFrom_of_decode readFrom_of_decode

/-- Settles O4, by evaluation of the thirteen words. -/
theorem workedEncodingsDecode : Obligations.WorkedEncodingsDecode := by
  unfold Obligations.WorkedEncodingsDecode
  decide

end Sys2Proof

namespace Sys2Proof.Machine

open Sys2Proof.Claims

/-! ## The shift codes (R89) -/

/-- An invalid shift is BAD_PARAM, whatever the windows (`60_exceptions.md` R182). -/
theorem State.hpelCompletion_of_none (s : State) (src dst : Overlay) {dx dy : Option Int} (h : dx = none ∨ dy = none) :
    s.hpelCompletion src dst dx dy = .error .badParam := by
  rcases h with rfl | rfl
  · rfl
  · cases dx <;> rfl

theorem exec_hpel_of_invalid (s : State) (src dst : Nat) {dx dy : ShiftCode}
    (h : shiftValue dx = none ∨ shiftValue dy = none) : exec (.hpel src dst dx dy) s = .next (s.ended 7) := by
  rw [exec_eq, completionOf, State.hpelCompletion_of_none _ _ _ h]
  exact congrArg _ (s.fail_eq_ended .badParam)

/-- Settles O8: the four codes, and the invalid one in either place. -/
theorem shiftCodesAreTwosComplement : Obligations.ShiftCodesAreTwosComplement :=
  ⟨rfl, rfl, rfl, rfl, fun s src dst _ =>
    ⟨exec_hpel_of_invalid s src dst (.inl rfl), exec_hpel_of_invalid s src dst (.inr rfl)⟩⟩

/-! ## The host's pseudo-commands (R87, R88) -/

/-- A step on a host write to a CSR of an idle block stores the value. -/
theorem step_of_csr_write_of_idle {s : State} {r : Csr} {v : Word} {rest : List Input} (hlaunch : s.launchOk)
    (halone : csrAlone s.params r.offset) (hidle : s.status.busy = false) (hin : s.inputs = wr s.params r v :: rest) :
    step s = .next { s.csrStore r v with inputs := rest } := by
  have hwrite := s.csrWrite_offset r v
  rw [State.csrWriteAt_of_idle r v hidle] at hwrite
  exact step_of_csrWrite_ok hlaunch hin halone hwrite

/-- Settles O23: the first write sets the byte position, the second the bit position. -/
theorem seekSetsTheCursor : Obligations.SeekSetsTheCursor := by
  intro s q rest hlaunch hbytePos hbitPos hidle hq hin
  have hbyte : (BitVec.ofNat 32 (q >>> 3)).toNat = q / 8 := by
    rw [BitVec.toNat_ofNat, Nat.shiftRight_eq_div_pow]
    omega
  have hbit : ((BitVec.ofNat 32 (q &&& 7)).extractLsb' 0 3).toNat = q % 8 := by
    rw [Nat.and_two_pow_sub_one_eq_mod q 3]
    simp
  refine ⟨_, _, step_of_csr_write_of_idle (r := .brBytePos) hlaunch hbytePos hidle hin,
    step_of_csr_write_of_idle (r := .brBitPos) hlaunch hbitPos hidle rfl, ?_, rfl, rfl, hbyte⟩
  calc State.cursor _
      = 8 * (BitVec.ofNat 32 (q >>> 3)).toNat + ((BitVec.ofNat 32 (q &&& 7)).extractLsb' 0 3).toNat := rfl
    _ = q := by rw [hbyte, hbit, Nat.div_add_mod]

/-- Settles O24: the wait reads STATUS, whose bit 0 is BUSY. -/
theorem waitEndsWhenIdle : Obligations.WaitEndsWhenIdle := by
  intro s rest hlaunch hidle hin
  obtain ⟨w, hread, hbusy, -⟩ := statusReadsItsFields s
  refine ⟨w, hread, hbusy.trans hidle, ?_⟩
  obtain rfl : s.status.word = w := Except.ok.inj ((s.csrRead_offset .status).symm.trans hread)
  rw [step_of_launchOk hlaunch, schedule_of_inputs_wait hin]
  simp [waitStep, hidle]

end Sys2Proof.Machine

/-! The bit reader (`40_bitreader.md`): the word of a command as a number, what each reader command comes to in each of its
cases, and what two states must share to read alike, then the obligations of that family. -/

/-! ## The command word as a number (R80) -/

namespace Sys2Proof

open Sys2Proof.Claims

/-- The byte fields do not overlap, so the word they are or-ed into is their weighted sum. -/
theorem commandWord_eq_ofNat {op a b : Nat} (c : Nat) (hop : op < 2 ^ 8) (ha : a < 2 ^ 8) (hb : b < 2 ^ 8) :
    commandWord op a b c = BitVec.ofNat 32 (c * 2 ^ 24 + (b * 2 ^ 16 + (a * 2 ^ 8 + op))) := by
  have hlow : b <<< 16 + (a <<< 8 + op) < 2 ^ 24 := by
    simp only [Nat.shiftLeft_eq]
    omega
  have hab : a <<< 8 + op < 2 ^ 16 := by
    simp only [Nat.shiftLeft_eq]
    omega
  simp only [← Nat.shiftLeft_eq]
  rw [Nat.shiftLeft_add_eq_or_of_lt hlow, Nat.shiftLeft_add_eq_or_of_lt hab, Nat.shiftLeft_add_eq_or_of_lt hop,
    ← Nat.or_assoc, ← Nat.or_assoc]
  apply BitVec.eq_of_getLsbD_eq
  intro k hk
  simp only [commandWord, BitVec.getLsbD_or, BitVec.getLsbD_shiftLeft, BitVec.getLsbD_ofNat, Nat.testBit_or,
    Nat.testBit_shiftLeft]
  grind

/-- The word of a command whose one operand is A. -/
theorem commandWord_of_a {op a : Nat} (hop : op < 2 ^ 8) (ha : a < 2 ^ 8) :
    commandWord op a 0 0 = BitVec.ofNat 32 (a * 2 ^ 8 + op) := by
  simpa using commandWord_eq_ofNat 0 hop ha (Nat.two_pow_pos 8)

/-- The word of RDBITS, for every count its field can hold (R81, R82). -/
theorem decode_rdbits_word {n : Nat} (h : n < 64) : decode (BitVec.ofNat 32 (n * 2 ^ 8 + 0x02)) = .ok (.rdbits n) := by
  rw [← commandWord_of_a (by omega) (by omega)]
  exact decode_encode (i := .rdbits n) (decide_eq_true h)

/-- The word of PKBITS, for every count its field can hold (R81, R82). -/
theorem decode_pkbits_word {n : Nat} (h : n < 64) : decode (BitVec.ofNat 32 (n * 2 ^ 8 + 0x03)) = .ok (.pkbits n) := by
  rw [← commandWord_of_a (by omega) (by omega)]
  exact decode_encode (i := .pkbits n) (decide_eq_true h)

/-- A reserved bit fails every command of the map (R83), stated for one opcode. -/
theorem reservedBitsFail {op : Nat} (h : op ∈ assignedOpcodes) : ReservedBitsFail op := fun w s hop hreserved =>
  (reservedBitFailsIllegal w s op h hop hreserved).2

end Sys2Proof

namespace Sys2Proof.Machine

open Sys2Proof.Claims

/-! ## What a read of the stream depends on (`20_memory.md` R62, R63) -/

/-- A read of at most 32 bits fits a RESULT register. -/
theorem State.toNat_ofNat_bsBits (s : State) (p : Nat) {n : Nat} (h : n ≤ 32) :
    (BitVec.ofNat 32 (s.bsBits p n)).toNat = s.bsBits p n := by
  rw [BitVec.toNat_ofNat, Nat.mod_eq_of_lt]
  calc s.bsBits p n
      < 2 ^ n := s.bsBits_lt p n
    _ ≤ 2 ^ 32 := Nat.pow_le_pow_right (by omega) h

/-- A read of `n` bits has no bit from `n` on. -/
theorem State.getLsbD_ofNat_bsBits (s : State) (p : Nat) {n k : Nat} (h : n ≤ k) :
    (BitVec.ofNat 32 (s.bsBits p n)).getLsbD k = false := by
  rw [BitVec.getLsbD_ofNat, State.testBit_bsBits, decide_eq_false (Nat.not_lt.2 h), Bool.false_and, Bool.and_false]

/-- A read of one bit is that bit. -/
theorem State.bsBits_one (s : State) (p : Nat) : s.bsBits p 1 = s.bsBit p := by
  rw [State.bsBits, State.bsBits, Nat.shiftLeft_zero, Nat.zero_add, Nat.add_zero]

/-- Two states whose reader commands see the same stream at the same cursor. -/
structure State.ReadsAlike (s t : State) : Prop where
  bsmem : t.bsmem = s.bsmem
  epoch : t.epoch = s.epoch
  bsLen : t.bsLen = s.bsLen
  brBytePos : t.brBytePos = s.brBytePos
  brBitPos : t.brBitPos = s.brBitPos

/-- The stream reads the same in two states with the same bytes and the same free draws. -/
theorem State.bsBits_congr {s t : State} (hmem : t.bsmem = s.bsmem) (hepoch : t.epoch = s.epoch) (p n : Nat) :
    t.bsBits p n = s.bsBits p n := by
  induction n with
  | zero => rfl
  | succ n ih => simp only [State.bsBits, ih, State.bsBit, State.bsByte, hmem, hepoch]

theorem State.ReadsAlike.cursor {s t : State} (h : s.ReadsAlike t) : t.cursor = s.cursor := by
  rw [State.cursor, State.cursor, h.brBytePos, h.brBitPos]

theorem State.ReadsAlike.streamEnd {s t : State} (h : s.ReadsAlike t) : streamEnd t = streamEnd s := by
  rw [Claims.streamEnd, Claims.streamEnd, h.bsLen]

theorem State.ReadsAlike.refl (s : State) : s.ReadsAlike s := ⟨rfl, rfl, rfl, rfl, rfl⟩

theorem State.ReadsAlike.trans {s t u : State} (hst : s.ReadsAlike t) (htu : t.ReadsAlike u) : s.ReadsAlike u :=
  ⟨htu.bsmem.trans hst.bsmem, htu.epoch.trans hst.epoch, htu.bsLen.trans hst.bsLen, htu.brBytePos.trans hst.brBytePos,
    htu.brBitPos.trans hst.brBitPos⟩

/-! ## The reader commands, case by case (R102 to R104) -/

section Cases

variable {s : State} {n : Nat}

@[simp] theorem State.ended_errCode (s : State) (c : BitVec 4) : (s.ended c).status.errCode = c := rfl

/-- The cursor fields hold every position up to the end of the stream. -/
theorem cursor_consumed (v r1 : Nat) (h : s.cursor + n ≤ streamEnd s) : (consumed s v r1 n).cursor = s.cursor + n :=
  s.cursor_setCursor _ (h.trans_lt s.streamBits_lt)

theorem exec_rdbits_of_large (h : 32 < n) : exec (.rdbits n) s = .next (s.ended 7) := by
  rw [exec_eq, completionOf, if_pos h]
  exact congrArg _ (s.fail_eq_ended .badParam)

theorem exec_rdbits_of_oob (hn : n ≤ 32) (h : streamEnd s < s.cursor + n) : exec (.rdbits n) s = .next (s.ended 1) := by
  rw [exec_eq, completionOf, if_neg (Nat.not_lt.2 hn), State.readBits_oob s n h]
  exact congrArg _ (s.fail_eq_ended .bsOob)

theorem exec_rdbits_of_fits (hn : n ≤ 32) (h : s.cursor + n ≤ streamEnd s) :
    exec (.rdbits n) s = .next (consumed s (s.bsBits s.cursor n) 0 n) := by
  rw [exec_eq, completionOf, if_neg (Nat.not_lt.2 hn), State.readBits_ok s n h]
  rfl

theorem exec_pkbits_of_large (h : 32 < n) : exec (.pkbits n) s = .next (s.ended 7) := by
  rw [exec_eq, completionOf, if_pos h]
  exact congrArg _ (s.fail_eq_ended .badParam)

theorem exec_pkbits_of_oob (hn : n ≤ 32) (h : streamEnd s < s.peekOff.toNat + n) :
    exec (.pkbits n) s = .next (s.ended 1) := by
  rw [exec_eq, completionOf, if_neg (Nat.not_lt.2 hn), State.peekBits_oob s n h]
  exact congrArg _ (s.fail_eq_ended .bsOob)

theorem exec_pkbits_of_fits (hn : n ≤ 32) (h : s.peekOff.toNat + n ≤ streamEnd s) :
    exec (.pkbits n) s = .next { s.ended 0 with
      result0 := BitVec.ofNat 32 (s.bsBits s.peekOff.toNat n), result1 := 0, result2 := 0 } := by
  rw [exec_eq, completionOf, if_neg (Nat.not_lt.2 hn), State.peekBits_ok s n h]
  rfl

/-- What a later read needs of a read that fits: its value, where it leaves the cursor, and that it leaves the stream. -/
theorem exec_rdbits_next (hn : n ≤ 32) (h : s.cursor + n ≤ streamEnd s) :
    ∃ t, exec (.rdbits n) s = .next t ∧ t.result0.toNat = s.bsBits s.cursor n ∧ t.cursor = s.cursor + n ∧
      t.status.errCode = 0 ∧ streamEnd t = streamEnd s ∧ ∀ p m, t.bsBits p m = s.bsBits p m :=
  ⟨_, exec_rdbits_of_fits hn h, s.toNat_ofNat_bsBits _ hn, cursor_consumed _ _ h, rfl, rfl, State.bsBits_congr rfl rfl⟩

/-- RDBIT is RDBITS 1 (R108): 1 is not above 32. -/
theorem exec_rdbit (s : State) : exec .rdbit s = exec (.rdbits 1) s := by
  rw [exec_eq, exec_eq, completionOf, completionOf, if_neg (by omega)]

end Cases

/-! ## PKBITS leaves the reader as it was (R106) -/

/-- A PKBITS ends its command and writes at most the RESULT registers. -/
theorem exec_pkbits_writes_results (s : State) (n : Nat) : ∃ a b c st, exec (.pkbits n) s =
    .next { s with result0 := a, result1 := b, result2 := c, status := st, pending := none } := by
  by_cases hn : n ≤ 32
  · by_cases hfits : s.peekOff.toNat + n ≤ streamEnd s
    · exact ⟨_, _, _, _, exec_pkbits_of_fits hn hfits⟩
    · exact ⟨_, _, _, _, exec_pkbits_of_oob hn (Nat.not_le.1 hfits)⟩
  · exact ⟨_, _, _, _, exec_pkbits_of_large (Nat.not_le.1 hn)⟩

/-- The host's write of PEEK_OFF and a PKBITS leave the stream and the cursor. -/
theorem exec_pkbits_readsAlike (s : State) (off : Word) (n : Nat) :
    ∃ t, exec (.pkbits n) { s with peekOff := off } = .next t ∧ s.ReadsAlike t := by
  obtain ⟨a, b, c, st, hexec⟩ := exec_pkbits_writes_results { s with peekOff := off } n
  exact ⟨_, hexec, rfl, rfl, rfl, rfl, rfl⟩

/-- After any number of peeks the reader reads as before them. -/
theorem afterPeeks_readsAlike (peeks : List (Word × Nat)) (s : State) :
    ∃ t, afterPeeks peeks s = .next t ∧ s.ReadsAlike t := by
  induction peeks generalizing s with
  | nil => exact ⟨s, rfl, .refl s⟩
  | cons peek rest ih =>
    obtain ⟨off, n⟩ := peek
    obtain ⟨u, hexec, hfirst⟩ := exec_pkbits_readsAlike s off n
    obtain ⟨t, hrest, halike⟩ := ih u
    refine ⟨t, ?_, hfirst.trans halike⟩
    rw [afterPeeks, hexec]
    exact hrest

/-! ## The obligations of the bit reader -/

/-- Settles O36: NOP's completion has no error and writes nothing. -/
theorem nopOnlyCompletes : Obligations.NopOnlyCompletes :=
  ⟨decode_encode (i := .nop) rfl, fun s => (exec_eq .nop s).trans (congrArg _ (s.fail_eq_ended .ok)),
    reservedBitsFail (by decide)⟩

/-- Settles O37: RDBIT as RDBITS 1. -/
theorem rdbitReadsTheBitAtTheCursor : Obligations.RdbitReadsTheBitAtTheCursor := by
  refine ⟨decode_encode (i := .rdbit) rfl, reservedBitsFail (by decide), fun s => ⟨fun hfits => ?_, fun hoob => ?_⟩⟩
  · refine ⟨?_, cursor_consumed _ _ hfits, s.bsBit_lt _⟩
    rw [exec_rdbit, exec_rdbits_of_fits (by omega) hfits, State.bsBits_one]
  · rw [exec_rdbit, exec_rdbits_of_oob (by omega) hoob]

/-- Settles O38, by the three cases of R103. -/
theorem rdbitsReadsAndAdvances : Obligations.RdbitsReadsAndAdvances :=
  ⟨fun _ => decode_rdbits_word, reservedBitsFail (by decide), fun s _ =>
    ⟨exec_rdbits_of_large, exec_rdbits_of_oob, fun hn hfits =>
      ⟨exec_rdbits_of_fits hn hfits, s.toNat_ofNat_bsBits _ hn, cursor_consumed _ _ hfits,
        fun _ => s.getLsbD_ofNat_bsBits _⟩⟩⟩

/-- Settles O39, by the three cases of R104. -/
theorem pkbitsReadsAtPeekOff : Obligations.PkbitsReadsAtPeekOff :=
  ⟨fun _ => decode_pkbits_word, reservedBitsFail (by decide), fun s _ =>
    ⟨exec_pkbits_of_large, exec_pkbits_of_oob, fun hn hfits =>
      ⟨_, exec_pkbits_of_fits hn hfits, rfl, s.toNat_ofNat_bsBits _ hn⟩⟩⟩

/-- Settles O42: the second read starts where the first left the cursor, and adjacent reads assemble to one. -/
theorem readsCompose : Obligations.ReadsCompose := by
  intro s n m hnm hfits
  obtain ⟨t, hexecₜ, hvalueₜ, hcursorₜ, hokₜ, hend, hbits⟩ := exec_rdbits_next (s := s) (n := n) (by omega) (by omega)
  obtain ⟨u, hexecᵤ, hvalueᵤ, hcursorᵤ, hokᵤ, -⟩ := exec_rdbits_next (s := t) (n := m) (by omega) (by omega)
  obtain ⟨v, hexecᵥ, hvalueᵥ, hcursorᵥ, hokᵥ, -⟩ := exec_rdbits_next (s := s) hnm (by omega)
  refine ⟨t, u, v, hexecₜ, hexecᵤ, hexecᵥ, ?_, by omega, by omega, hokₜ, hokᵤ, hokᵥ⟩
  calc v.result0.toNat
      = s.bsBits s.cursor (n + m) := hvalueᵥ
    _ = s.bsBits s.cursor n + s.bsBits (s.cursor + n) m * 2 ^ n := s.bsBits_add _ n m
    _ = t.result0.toNat + u.result0.toNat * 2 ^ n := by rw [hvalueₜ, hvalueᵤ, hbits, hcursorₜ]

/-- Settles O43: the peeks leave a state that reads alike, where each case of R103 goes the same way. -/
theorem peekingHasNoSideEffect : Obligations.PeekingHasNoSideEffect := by
  refine ⟨exec_pkbits_writes_results, fun peeks s m => ?_⟩
  obtain ⟨t, hpeeks, halike⟩ := afterPeeks_readsAlike peeks s
  have hcursor := halike.cursor
  have hend := halike.streamEnd
  by_cases hm : m ≤ 32
  · by_cases hfits : s.cursor + m ≤ streamEnd s
    · have hfits' : t.cursor + m ≤ streamEnd t := by omega
      refine ⟨t, _, _, hpeeks, exec_rdbits_of_fits hm hfits', exec_rdbits_of_fits hm hfits, rfl, ?_, fun _ => ⟨?_, rfl, rfl⟩⟩
      · rw [cursor_consumed _ _ hfits', cursor_consumed _ _ hfits, hcursor]
      · rw [consumed, consumed, hcursor, State.bsBits_congr halike.bsmem halike.epoch]
    · exact ⟨t, _, _, hpeeks, exec_rdbits_of_oob hm (by omega), exec_rdbits_of_oob hm (by omega), rfl, hcursor,
        fun hok => absurd hok (by simp)⟩
  · exact ⟨t, _, _, hpeeks, exec_rdbits_of_large (by omega), exec_rdbits_of_large (by omega), rfl, hcursor,
      fun hok => absurd hok (by simp)⟩

/-- Settles O44, by the three cases the two commands share when PEEK_OFF is the cursor. -/
theorem peekEqualsRead : Obligations.PeekEqualsRead := by
  intro s n hoff
  by_cases hn : n ≤ 32
  · by_cases hfits : s.cursor + n ≤ streamEnd s
    · refine ⟨_, _, exec_pkbits_of_fits hn (by omega), exec_rdbits_of_fits hn hfits, ?_, ?_,
        fun _ => ⟨rfl, rfl, cursor_consumed _ _ hfits⟩⟩
      · rw [hoff]
        rfl
      · rw [hoff]
        rfl
    · exact ⟨_, _, exec_pkbits_of_oob hn (by omega), exec_rdbits_of_oob hn (by omega), rfl, rfl,
        fun hok => absurd hok (by simp)⟩
  · exact ⟨_, _, exec_pkbits_of_large (by omega), exec_rdbits_of_large (by omega), rfl, rfl,
      fun hok => absurd hok (by simp)⟩

/-- Settles O45: with the count 1 the read ends in BS_OOB or without error. -/
theorem rdbitIsRdbitsOne : Obligations.RdbitIsRdbitsOne := by
  refine fun s => ⟨exec_rdbit s, ?_⟩
  rw [exec_rdbit]
  by_cases hfits : s.cursor + 1 ≤ streamEnd s
  · exact ⟨_, exec_rdbits_of_fits (by omega) hfits, (by decide : (0 : BitVec 4) ≠ 7)⟩
  · exact ⟨_, exec_rdbits_of_oob (by omega) (by omega), (by decide : (1 : BitVec 4) ≠ 7)⟩

end Sys2Proof.Machine

/-! The VLC coder (`41_vlc.md`): the words of its commands, the table check as the conditions of R121, and what Encode2 and
Decode2 come to in each of their cases, then the obligations of that family. -/

/-! ## The words of the commands (R81) -/

namespace Sys2Proof

/-- The word of a command whose operands are A and B. -/
theorem commandWord_of_ab {op a b : Nat} (hop : op < 2 ^ 8) (ha : a < 2 ^ 8) (hb : b < 2 ^ 8) :
    commandWord op a b 0 = BitVec.ofNat 32 (b * 2 ^ 16 + a * 2 ^ 8 + op) := by
  simpa [Nat.add_assoc] using commandWord_eq_ofNat 0 hop ha hb

/-- The word of ENC_TZ, for every pair its fields can hold (R126). -/
theorem decode_encTz_word {tz tc : Nat} (htz : tz < 16) (htc : tc < 16) :
    decode (BitVec.ofNat 32 (tc * 2 ^ 16 + tz * 2 ^ 8 + 0x10)) = .ok (.encTz tz tc) := by
  rw [← commandWord_of_ab (by omega) (by omega) (by omega)]
  exact decode_encode (i := .encTz tz tc) (by simp [Instr.wf, symbolOk, htz, htc])

/-- The word of ENC_RB, for every pair its fields can hold (R128). -/
theorem decode_encRb_word {rb zl : Nat} (hrb : rb < 16) (hzl : zl < 16) :
    decode (BitVec.ofNat 32 (zl * 2 ^ 16 + rb * 2 ^ 8 + 0x12)) = .ok (.encRb rb zl) := by
  rw [← commandWord_of_ab (by omega) (by omega) (by omega)]
  exact decode_encode (i := .encRb rb zl) (by simp [Instr.wf, symbolOk, hrb, hzl])

/-- The word of a command whose one operand is B. -/
theorem commandWord_of_b {op b : Nat} (hop : op < 2 ^ 8) (hb : b < 2 ^ 8) :
    commandWord op 0 b 0 = BitVec.ofNat 32 (b * 2 ^ 16 + op) := by
  simpa using commandWord_of_ab hop (Nat.two_pow_pos 8) hb

/-- The word of DEC_TZ, for every context its field can hold (R127). -/
theorem decode_decTz_word {tc : Nat} (h : tc < 16) :
    decode (BitVec.ofNat 32 (tc * 2 ^ 16 + 0x11)) = .ok (.decTz tc) := by
  rw [← commandWord_of_b (by omega) (by omega)]
  exact decode_encode (i := .decTz tc) (decide_eq_true h)

/-- The word of DEC_RB, for every context its field can hold (R129). -/
theorem decode_decRb_word {zl : Nat} (h : zl < 16) :
    decode (BitVec.ofNat 32 (zl * 2 ^ 16 + 0x13)) = .ok (.decRb zl) := by
  rw [← commandWord_of_b (by omega) (by omega)]
  exact decode_encode (i := .decRb zl) (decide_eq_true h)

end Sys2Proof

namespace Sys2Proof.Machine

open Sys2Proof.Claims

/-! ## The table check is the conditions of R121 -/

/-- Conditions 1 and 2 for one entry. -/
theorem VlcEntry.ok_iff (e : VlcEntry) : e.ok = true ↔
    e.numBits ≤ 16 ∧ e.codeWord.toNat < 2 ^ e.numBits ∧ (e.numBits = 0 → e.codeWord = 0) := by
  simp only [VlcEntry.ok, Bool.and_eq_true, decide_eq_true_eq, Bool.or_eq_true, bne_iff_ne, beq_iff_eq, and_assoc,
    ← imp_iff_not_or]

/-- Condition 3 for two entries, one way. -/
theorem VlcEntry.notPrefixOf_iff (a b : VlcEntry) : a.notPrefixOf b = true ↔
    (0 < a.numBits → a.numBits ≤ b.numBits → b.codeWord.toNat % 2 ^ a.numBits ≠ a.codeWord.toNat) := by
  simp only [VlcEntry.notPrefixOf, Bool.or_eq_true, beq_iff_eq, decide_eq_true_eq, bne_iff_ne]
  rw [Nat.pos_iff_ne_zero, ← Nat.not_lt (a := b.numBits)]
  tauto

/-- A column's check holds of its entries two by two. -/
theorem prefixFree_iff_pairwise (es : List VlcEntry) :
    prefixFree es = true ↔ es.Pairwise fun a b => a.notPrefixOf b = true ∧ b.notPrefixOf a = true := by
  induction es with
  | nil => simp [prefixFree]
  | cons a es ih => simp [prefixFree, VlcEntry.freeOf, ih]

/-- The other direction of `VlcTable.wf_entry` and `VlcTable.wf_prefix`: the conditions make the check pass. -/
theorem VlcTable.wf_of_conditions {t : VlcTable} (h : TableConditions t) : t.wf = true := by
  have hfree (s u ctx : Nat) (hs : s < 16) (hu : u < 16) (hc : ctx < 16) (hsu : s ≠ u) :
      (t.columns[ctx])[s].notPrefixOf (t.columns[ctx])[u] = true := by
    obtain ⟨-, -, -, hapart⟩ := h ctx hc s hs
    rw [← t.entry_eq s ctx hs hc, ← t.entry_eq u ctx hu hc]
    exact (VlcEntry.notPrefixOf_iff _ _).2 (hapart u hu hsu)
  simp only [VlcTable.wf, List.all_eq_true, Bool.and_eq_true]
  intro col hcol
  obtain ⟨ctx, hctx, rfl⟩ := List.getElem_of_mem hcol
  have hc : ctx < 16 := by simpa using hctx
  refine ⟨fun e he => ?_, ?_⟩
  · obtain ⟨s, hs, rfl⟩ := List.getElem_of_mem he
    have hs16 : s < 16 := by simpa using hs
    obtain ⟨hlen, hcode, hzero, -⟩ := h ctx hc s hs16
    simpa [← t.entry_eq s ctx hs16 hc] using (VlcEntry.ok_iff _).2 ⟨hlen, hcode, hzero⟩
  · refine (prefixFree_iff_pairwise _).2 (List.Pairwise.filter _ (List.pairwise_iff_getElem.2 fun s u hs hu hsu => ?_))
    have hs16 : s < 16 := by simpa using hs
    have hu16 : u < 16 := by simpa using hu
    exact ⟨by simpa using hfree s u ctx hs16 hu16 hc (by omega), by simpa using hfree u s ctx hu16 hs16 hc (by omega)⟩

theorem VlcTable.wf_iff (t : VlcTable) : t.wf = true ↔ TableConditions t := by
  refine ⟨fun h ctx hc s hs => ?_, VlcTable.wf_of_conditions⟩
  obtain ⟨hlen, hcode, hzero⟩ := t.wf_entry h s ctx
  exact ⟨hlen, hcode, hzero, fun u hu => t.wf_prefix h s u ctx hs hu hc⟩

theorem VlcTable.wfTz_iff (t : VlcTable) :
    t.wfTz = true ↔ TableConditions t ∧ t.entry 0 1 = { numBits := 1, codeWord := 1 } := by
  rw [VlcTable.wfTz, Bool.and_eq_true, VlcTable.wf_iff, beq_iff_eq]

/-- What a good launch says of the tables. -/
theorem State.launchOk.tables {s : State} (h : s.launchOk) : s.tzTable.wf = true ∧
    s.tzTable.entry 0 1 = { numBits := 1, codeWord := 1 } ∧ s.rbTable.wf = true := by
  obtain ⟨-, htz, hrb⟩ := h
  obtain ⟨hconditions, hone⟩ := s.tzTable.wfTz_iff.1 htz
  exact ⟨s.tzTable.wf_iff.2 hconditions, hone, hrb⟩

/-- With the parameters in range a launch that is not good has the table fault. -/
theorem step_of_not_launchOk {s : State} (hrange : s.params.inRange = true) (h : ¬s.launchOk) :
    step s = .fault .illFormedTable := by
  have htables : (s.tzTable.wfTz && s.rbTable.wf) = false := by
    rw [← Bool.not_eq_true, Bool.and_eq_true]
    exact fun ⟨htz, hrb⟩ => h ⟨hrange, htz, hrb⟩
  simp [step, launchStop, hrange, htables]

/-- Settles O34: the check is the conditions, and a launch that fails them is not good. -/
theorem illFormedTableTakesNoStep : Obligations.IllFormedTableTakesNoStep := by
  refine ⟨fun t => ⟨t.wf_iff, t.wfTz_iff⟩, fun s hfails => ?_⟩
  have hlaunch : ¬s.launchOk := by
    intro hlaunch
    obtain ⟨htz, hone, hrb⟩ := hlaunch.tables
    exact hfails ⟨s.tzTable.wf_iff.1 htz, hone, s.rbTable.wf_iff.1 hrb⟩
  exact ⟨fun t hstep => hlaunch (step_next hstep).1, fun hrange => step_of_not_launchOk hrange hlaunch⟩

/-! ## Encode2 (R126, R128) -/

/-- A completion that writes only the RESULT registers. -/
theorem State.complete_results (s : State) (c : ErrCode) (a b d : Word) :
    s.complete { code := c, results := some (a, b, d) } =
      { s.ended c.code with result0 := a, result1 := b, result2 := d } := by
  simp only [State.complete, State.writeResults, State.writeCursor, Memory.writeAll, Status.complete_eq_after]
  rfl

/-- The entry's code word and length, whether or not the entry holds a code. -/
theorem encodesAs_encodePair (s : State) (t : VlcTable) (sym ctx : Nat) :
    EncodesAs s (t.entry sym ctx) (.next (s.complete (encodePair t sym ctx))) := by
  rw [EncodesAs, encodePair, resultWords, State.complete_results, BitVec.ofNat_toNat, apply_ite ErrCode.code]
  rfl

/-- Settles O46, as Encode2 over TZ_TABLE. -/
theorem encTzLooksUpTheEntry : Obligations.EncTzLooksUpTheEntry :=
  ⟨fun _ htz _ htc => decode_encTz_word htz htc, reservedBitsFail (by decide), fun s tz tc => by
    rw [exec_eq]
    exact encodesAs_encodePair s s.tzTable tz tc⟩

/-- Settles O47, as Encode2 over RB_TABLE. -/
theorem encRbLooksUpTheEntry : Obligations.EncRbLooksUpTheEntry :=
  ⟨fun _ hrb _ hzl => decode_encRb_word hrb hzl, reservedBitsFail (by decide), fun s rb zl => by
    rw [exec_eq]
    exact encodesAs_encodePair s s.rbTable rb zl⟩

/-! ## VlcDecode by the first length that decides (R125) -/

section Decode

variable {s : State} {t : VlcTable} {ctx sym len : Nat}

/-- A length that has codes, where the stream is too short for it. -/
theorem State.vlcMatch_oob (after : List Nat) (hlen : hasLength t ctx len) (hoob : s.streamBits < s.cursor + len) :
    s.vlcMatch t ctx (len :: after) = .error .bsOob := by
  obtain ⟨sym, hsym, hbits⟩ := hlen
  have hne : ¬(t.candidates ctx len).isEmpty = true := fun hempty =>
    (t.candidates_isEmpty ctx len).1 hempty sym hsym hbits
  rw [State.vlcMatch, if_neg hne, if_pos hoob]

/-- The matching passes over lengths below `len` that decide nothing. -/
theorem State.vlcMatch_of_undecided {before : List Nat} (after : List Nat) (hundecided : undecidedBelow s t ctx len)
    (hbefore : ∀ l ∈ before, 1 ≤ l ∧ l < len) : s.vlcMatch t ctx (before ++ after) = s.vlcMatch t ctx after := by
  refine s.vlcMatch_skip t ctx before after (fun l hl hcodes => ?_) (fun l hl sym hsym hbits hcode => ?_)
  · obtain ⟨hpos, hlt⟩ := hbefore l hl
    exact (hundecided l hpos hlt hcodes).1
  · obtain ⟨hpos, hlt⟩ := hbefore l hl
    exact (hundecided l hpos hlt ⟨sym, hsym, hbits⟩).2 sym ⟨hsym, hbits, hcode.symm⟩

/-- The matching comes to a length when the ones below it decide nothing. -/
theorem State.vlcDecode_of_undecided (hpos : 1 ≤ len) (hle : len ≤ 16) (hundecided : undecidedBelow s t ctx len) :
    ∃ after, s.vlcDecode t ctx = s.vlcMatch t ctx (len :: after) := by
  obtain ⟨before, after, hsplit, hbefore⟩ := codeLengths_split len ⟨hpos, hle⟩
  exact ⟨after, by rw [State.vlcDecode, hsplit, State.vlcMatch_of_undecided _ hundecided hbefore]⟩

/-- Two codes of a well-formed column that stand at the cursor are one: the longer would begin with the shorter, which R121
condition 3 excludes. -/
theorem eq_of_codeAtCursor {sym' len' : Nat} (hwf : t.wf = true) (hctx : ctx < 16) (hpos : 1 ≤ len) (hle : len ≤ len')
    (hcode : codeAtCursor s t ctx sym len) (hcode' : codeAtCursor s t ctx sym' len') : sym = sym' := by
  obtain ⟨hsym, rfl, hbits⟩ := hcode
  obtain ⟨hsym', rfl, hbits'⟩ := hcode'
  by_contra hne
  refine t.wf_prefix hwf sym sym' ctx hsym hsym' hctx hne hpos hle ?_
  rw [← hbits', ← hbits, s.bsBits_mod_of_le _ hle]

/-- Below a code of a well-formed column that stands at the cursor and fits the stream, no length decides. -/
theorem undecidedBelow_of_codeAtCursor (hwf : t.wf = true) (hctx : ctx < 16) (hcode : codeAtCursor s t ctx sym len)
    (hfits : s.cursor + len ≤ streamEnd s) : undecidedBelow s t ctx len := by
  intro l hpos hlt _
  refine ⟨by omega, fun sym' hcode' => ?_⟩
  obtain rfl := eq_of_codeAtCursor hwf hctx hpos (by omega) hcode' hcode
  obtain ⟨-, hlen', -⟩ := hcode'
  obtain ⟨-, hlen, -⟩ := hcode
  omega

theorem State.vlcDecode_hit (hwf : t.wf = true) (hctx : ctx < 16) (hpos : 1 ≤ len) (hle : len ≤ 16)
    (hcode : codeAtCursor s t ctx sym len) (hfits : s.cursor + len ≤ streamEnd s) :
    s.vlcDecode t ctx = .ok (sym, len) := by
  obtain ⟨after, hdecode⟩ := State.vlcDecode_of_undecided hpos hle (undecidedBelow_of_codeAtCursor hwf hctx hcode hfits)
  obtain ⟨hsym, hlen, hbits⟩ := hcode
  rw [hdecode]
  refine s.vlcMatch_hit t ctx len sym after hsym hlen hfits hbits.symm fun x hx hxlen hxbits => ?_
  exact eq_of_codeAtCursor hwf hctx hpos le_rfl ⟨hx, hxlen, hxbits.symm⟩ ⟨hsym, hlen, hbits⟩

theorem State.vlcDecode_oob (hpos : 1 ≤ len) (hle : len ≤ 16) (hlen : hasLength t ctx len)
    (hoob : streamEnd s < s.cursor + len) (hundecided : undecidedBelow s t ctx len) :
    s.vlcDecode t ctx = .error .bsOob := by
  obtain ⟨after, hdecode⟩ := State.vlcDecode_of_undecided hpos hle hundecided
  rw [hdecode, State.vlcMatch_oob after hlen hoob]

theorem State.vlcDecode_noMatch (hundecided : undecidedBelow s t ctx 17) : s.vlcDecode t ctx = .error .vlcNoMatch := by
  have hskip := State.vlcMatch_of_undecided (before := codeLengths) [] hundecided fun l hl => by
    obtain ⟨hpos, hle⟩ := (mem_codeLengths l).1 hl
    exact ⟨hpos, by omega⟩
  rwa [List.append_nil] at hskip

/-- The matching fails in two ways only. -/
theorem State.vlcMatch_error {lens : List Nat} {c : ErrCode} (h : s.vlcMatch t ctx lens = .error c) :
    c = .bsOob ∨ c = .vlcNoMatch := by
  induction lens with
  | nil => exact .inr (Except.error.inj h).symm
  | cons l lens ih =>
    rw [State.vlcMatch] at h
    split at h
    · exact ih h
    · split at h
      · exact .inl (Except.error.inj h).symm
      · split at h
        · cases h
        · exact ih h

/-! ## Decode2 (R127, R129) -/

theorem State.complete_decodePair_of_ok (h : s.vlcDecode t ctx = .ok (sym, len)) :
    s.complete (s.decodePair t ctx) = consumed s sym ctx len := by
  rw [State.decodePair, h]
  rfl

theorem State.complete_decodePair_of_error {c : ErrCode} (h : s.vlcDecode t ctx = .error c) :
    s.complete (s.decodePair t ctx) = s.ended c.code := by
  rw [State.decodePair, h]
  exact s.fail_eq_ended c

/-- The three ways of R125, over a well-formed table. -/
theorem decodesAs_decodePair (hwf : t.wf = true) (hctx : ctx < 16) :
    DecodesAs s t ctx (.next (s.complete (s.decodePair t ctx))) := by
  refine ⟨fun sym len hpos hle hcode hfits _ => ?_, fun len hpos hle hlen hoob hundecided => ?_, fun hundecided => ?_⟩
  · rw [State.complete_decodePair_of_ok (State.vlcDecode_hit hwf hctx hpos hle hcode hfits)]
  · rw [State.complete_decodePair_of_error (State.vlcDecode_oob hpos hle hlen hoob hundecided)]
    rfl
  · rw [State.complete_decodePair_of_error (State.vlcDecode_noMatch hundecided)]
    rfl

/-- A code of a well-formed table at the cursor is decoded, whatever its shorter lengths hold. -/
theorem State.complete_decodePair_of_codeAtCursor (hwf : t.wf = true) (hctx : ctx < 16) (hpos : 0 < len)
    (hfits : s.cursor + len ≤ streamEnd s) (hcode : codeAtCursor s t ctx sym len) :
    s.complete (s.decodePair t ctx) = consumed s sym ctx len ∧ (consumed s sym ctx len).cursor = s.cursor + len := by
  have hle : len ≤ 16 := by
    obtain ⟨hle, -, -⟩ := t.wf_entry hwf sym ctx
    obtain ⟨-, hlen, -⟩ := hcode
    omega
  exact ⟨State.complete_decodePair_of_ok (State.vlcDecode_hit hwf hctx hpos hle hcode hfits),
    cursor_consumed sym ctx hfits⟩

/-- A decode that ends without error found a code: its symbol and length fit their RESULT registers. -/
theorem State.decodePair_consumes_entry {u : State} (hctx : ctx < 16) (hu : u = s.complete (s.decodePair t ctx))
    (hok : u.status.errCode = 0) : codeAtCursor s t ctx u.result0.toNat u.result2.toNat ∧ u.result1.toNat = ctx ∧
      u.cursor = s.cursor + (t.entry u.result0.toNat ctx).numBits := by
  cases hdecode : s.vlcDecode t ctx with
  | error c =>
    rw [hu, State.complete_decodePair_of_error hdecode, State.ended_errCode] at hok
    rcases State.vlcMatch_error hdecode with rfl | rfl <;> exact absurd hok (by decide)
  | ok found =>
    obtain ⟨sym, len⟩ := found
    obtain ⟨hsym, hlen, hmem, hfits, hcode⟩ := s.vlcMatch_ok t ctx codeLengths sym len hdecode
    obtain ⟨-, hle⟩ := (mem_codeLengths len).1 hmem
    have hword {n : Nat} (hn : n ≤ 16) : (BitVec.ofNat 32 n).toNat = n := by
      rw [BitVec.toNat_ofNat]
      omega
    have hresult0 : (consumed s sym ctx len).result0.toNat = sym := hword (by omega)
    have hresult1 : (consumed s sym ctx len).result1.toNat = ctx := hword (by omega)
    have hresult2 : (consumed s sym ctx len).result2.toNat = len := hword hle
    rw [hu, State.complete_decodePair_of_ok hdecode, cursor_consumed sym ctx hfits, hresult0, hresult1, hresult2, hlen]
    exact ⟨⟨hsym, hlen, hcode.symm⟩, rfl, rfl⟩

end Decode

/-! ## The obligations of the decoder -/

/-- Settles O48, as Decode2 over TZ_TABLE. -/
theorem decTzMatchesTheColumn : Obligations.DecTzMatchesTheColumn :=
  ⟨fun _ => decode_decTz_word, reservedBitsFail (by decide), fun s tc hlaunch htc => by
    obtain ⟨hwf, -, -⟩ := hlaunch.tables
    rw [exec_eq]
    exact decodesAs_decodePair hwf htc⟩

/-- Settles O49, as Decode2 over RB_TABLE. -/
theorem decRbMatchesTheColumn : Obligations.DecRbMatchesTheColumn :=
  ⟨fun _ => decode_decRb_word, reservedBitsFail (by decide), fun s zl hlaunch hzl => by
    obtain ⟨-, -, hwf⟩ := hlaunch.tables
    rw [exec_eq]
    exact decodesAs_decodePair hwf hzl⟩

/-- Settles O50: by condition 3 of R121 every length below the code at the cursor is undecided. -/
theorem decodeInvertsEncode : Obligations.DecodeInvertsEncode := by
  intro s sym ctx n hlaunch hctx hpos hfits
  obtain ⟨htz, -, hrb⟩ := hlaunch.tables
  rw [exec_eq, exec_eq, Host.Outcome.next.injEq, Host.Outcome.next.injEq]
  exact ⟨State.complete_decodePair_of_codeAtCursor htz hctx hpos hfits,
    State.complete_decodePair_of_codeAtCursor hrb hctx hpos hfits⟩

/-- DEC1's completion: the sentinel and two zeros, with UNSUPPORTED (R130). -/
theorem exec_dec1 (s : State) : exec .dec1 s =
    .next { s.ended 4 with result0 := s.params.dec1Sentinel, result1 := 0, result2 := 0 } := by
  rw [exec_eq, completionOf, State.complete_results]
  rfl

/-- Settles O51: a decode that ends without error found a code, and the other completions write RESULT2 = 0 and no cursor. -/
theorem decodeConsumesTheEntryItReturns : Obligations.DecodeConsumesTheEntryItReturns := by
  refine ⟨fun s t ctx hctx hok => ⟨fun hexec => ?_, fun hexec => ?_⟩, fun s t a b hexec => ?_⟩
  · exact State.decodePair_consumes_entry hctx (exec_next hexec) hok
  · exact State.decodePair_consumes_entry hctx (exec_next hexec) hok
  · rcases hexec with hexec | hexec | hexec <;> obtain rfl := exec_next hexec <;>
      exact ⟨s.complete_cursor_none _ rfl, rfl⟩

/-- Settles O52: the entry of condition 4, encoded and decoded. -/
theorem documentedCodeRoundTrips : Obligations.DocumentedCodeRoundTrips := by
  intro s hlaunch
  obtain ⟨-, hone, -⟩ := hlaunch.tables
  refine ⟨?_, fun hfits hbit => ?_⟩
  · obtain ⟨-, -, hencodes⟩ := encTzLooksUpTheEntry
    have hexec := hencodes s 0 1
    rw [hone] at hexec
    exact hexec
  · have hcode : codeAtCursor s s.tzTable 1 0 1 := by
      rw [codeAtCursor, hone, State.bsBits_one, hbit]
      decide
    exact ((decodeInvertsEncode s 0 1 1 hlaunch (by omega) (by omega) hfits).1 hcode).1

/-- Settles O53: DEC1's completion does not depend on the stream. -/
theorem dec1ReturnsTheSentinel : Obligations.Dec1ReturnsTheSentinel :=
  ⟨decode_encode (i := .dec1) rfl, reservedBitsFail (by decide), fun s => ⟨exec_dec1 s, Bool.or_true _⟩⟩

end Sys2Proof.Machine

/-! The pixel commands (`42_pixel.md`): the words of SSD, SSDB and HPEL, the window checks as the rules write them, the squared
differences summed in raster order, and the samples HPEL writes, then the obligations of that family. -/

/-! ## The words of the commands (R81) -/

namespace Sys2Proof

/-- The word of SSD, for every pair of descriptors its fields can hold (R153). -/
theorem decode_ssd_word {p q : Nat} (hp : p < 4) (hq : q < 4) :
    decode (BitVec.ofNat 32 (q * 2 ^ 16 + p * 2 ^ 8 + 0x20)) = .ok (.ssd p q) := by
  rw [← commandWord_of_ab (by omega) (by omega) (by omega)]
  exact decode_encode (i := .ssd p q) (by simp [Instr.wf, overlayOk, hp, hq])

/-- The word of SSDB, for every pair of descriptors its fields can hold (R154). -/
theorem decode_ssdb_word {p q : Nat} (hp : p < 4) (hq : q < 4) :
    decode (BitVec.ofNat 32 (q * 2 ^ 16 + p * 2 ^ 8 + 0x21)) = .ok (.ssdb p q) := by
  rw [← commandWord_of_ab (by omega) (by omega) (by omega)]
  exact decode_encode (i := .ssdb p q) (by simp [Instr.wf, overlayOk, hp, hq])

/-- The word of HPEL, for every pair of descriptors and of shift codes (R155): C is the dy code above the dx code. -/
theorem decode_hpel_word {s d : Nat} (x y : ShiftCode) (hs : s < 4) (hd : d < 4) :
    decode (BitVec.ofNat 32 (y.bits * 2 ^ 26 + x.bits * 2 ^ 24 + d * 2 ^ 16 + s * 2 ^ 8 + 0x22)) = .ok (.hpel s d x y) := by
  have hfields : y.bits * 2 ^ 26 + x.bits * 2 ^ 24 + d * 2 ^ 16 + s * 2 ^ 8 + 0x22 =
      (y.bits * 4 + x.bits) * 2 ^ 24 + (d * 2 ^ 16 + (s * 2 ^ 8 + 0x22)) := by omega
  rw [hfields, ← commandWord_eq_ofNat _ (by omega) (by omega) (by omega)]
  exact decode_encode (i := .hpel s d x y) (by simp [Instr.wf, overlayOk, hs, hd])

end Sys2Proof

namespace Sys2Proof.Machine

open Sys2Proof.Claims

/-! ## The window checks as the rules write them (R151 to R153) -/

theorem Overlay.sizeOk_iff_sized (o : Overlay) : o.sizeOk = true ↔ sized o := by
  simp only [Overlay.sizeOk, Bool.and_eq_true, decide_eq_true_eq, and_assoc]
  exact Iff.rfl

/-- A legal window has at most 256 * 256 samples. -/
theorem samples_le_of_sized {o : Overlay} (h : sized o) : o.w * o.h ≤ 65536 := by
  obtain ⟨-, hw, -, hh⟩ := h
  exact Nat.mul_le_mul hw hh

theorem samples_pos_of_sized {o : Overlay} (h : sized o) : 0 < o.w * o.h := by
  obtain ⟨hw, -, hh, -⟩ := h
  exact Nat.mul_pos hw hh

section Checks

variable {p q : Overlay} {inPlace : Bool}

theorem windowChecks_of_not_sized (h : ¬(sized p ∧ sized q)) : windowChecks p q inPlace = some .badParam := by
  rw [windowChecks, if_pos]
  simpa only [Bool.not_eq_true', ← Bool.not_eq_true, Bool.and_eq_true, Overlay.sizeOk_iff_sized] using h

theorem windowChecks_of_mismatch (hsized : sized p ∧ sized q) (h : ¬(p.w = q.w ∧ p.h = q.h)) :
    windowChecks p q inPlace = some .dimMismatch := by
  simp only [← Overlay.sizeOk_iff_sized] at hsized
  obtain ⟨hp, hq⟩ := hsized
  rw [windowChecks, hp, hq, if_neg (by decide), if_pos (by omega)]

theorem windowChecks_of_misplaced (hsized : sized p ∧ sized q) (hdims : p.w = q.w ∧ p.h = q.h) (h : inPlace = false) :
    windowChecks p q inPlace = some .pixOob := by
  simp only [← Overlay.sizeOk_iff_sized] at hsized
  obtain ⟨hp, hq⟩ := hsized
  rw [windowChecks, hp, hq, h, if_neg (by decide), if_neg (by omega)]
  rfl

/-- The three errors two windows share, in their order, of an outcome that ends with whatever the checks report. -/
theorem windowErrors {s : State} {o : Host.Outcome State Fault Refusal} {inside : Prop} (hinside : inPlace = true ↔ inside)
    (hends : ∀ c, windowChecks p q inPlace = some c → o = .next (s.ended c.code)) :
    (¬(sized p ∧ sized q) → o = .next (s.ended 7)) ∧
    (sized p ∧ sized q → ¬(p.w = q.w ∧ p.h = q.h) → o = .next (s.ended 6)) ∧
    (sized p ∧ sized q → p.w = q.w ∧ p.h = q.h → ¬inside → o = .next (s.ended 5)) := by
  refine ⟨fun h => hends _ (windowChecks_of_not_sized h), fun hsized h => hends _ (windowChecks_of_mismatch hsized h),
    fun hsized hdims h => hends _ (windowChecks_of_misplaced hsized hdims ?_)⟩
  rwa [← hinside, Bool.not_eq_true] at h

end Checks

/-! ## Sums in raster order (R150, R153, R154) -/

theorem raster_succ (w h : Nat) : raster w (h + 1) = raster w h ++ (List.range w).map fun j => (j, h) := by
  simp [raster, List.range_succ]

/-- Sample `m` of a window is at column `m % w` of row `m / w`. -/
theorem raster_eq_map_range (w h : Nat) : raster w h = (List.range (w * h)).map fun m => (m % w, m / w) := by
  induction h with
  | zero => rfl
  | succ h ih =>
    rw [raster_succ, ih, Nat.mul_succ, List.range_add, List.map_append, List.map_map]
    congr 1
    refine List.map_congr_left fun j hj => ?_
    have hlt : j < w := List.mem_range.1 hj
    simp [Nat.mul_add_div (by omega : 0 < w), Nat.mod_eq_of_lt hlt, Nat.div_eq_of_lt hlt]

/-- A sum in raster order is the sum over all rows and columns. -/
theorem sum_map_raster (w h : Nat) (f : Nat × Nat → Nat) :
    ((raster w h).map f).sum = ∑ i ∈ Finset.range h, ∑ j ∈ Finset.range w, f (j, i) := by
  induction h with
  | zero => rfl
  | succ h ih =>
    rw [raster_succ, List.map_append, List.sum_append, ih, Finset.sum_range_succ, List.map_map]
    rfl

theorem sum_take_map_raster (w h : Nat) (f : Nat × Nat → Nat) {k : Nat} (hk : k ≤ w * h) :
    (((raster w h).map f).take k).sum = ∑ m ∈ Finset.range k, f (m % w, m / w) := by
  rw [raster_eq_map_range, List.map_map, ← List.map_take, List.take_range, Nat.min_eq_left hk]
  rfl

theorem cast_sqDiff (a b : Nat) : (sqDiff a b : Int) = ((a : Int) - b) ^ 2 := by
  rw [sqDiff, Int.toNat_of_nonneg (mul_self_nonneg _), sq]

/-- The sum of the first `k` squared differences of two windows, in raster order. -/
def State.ssdUpTo (s : State) (p q : Overlay) (k : Nat) : Nat := ((s.windowDiffs p q).take k).sum

section Sums

variable (s : State) {p q : Overlay}

theorem State.ssdUpTo_all : s.ssdUpTo p q (p.w * p.h) = (s.windowDiffs p q).sum := by
  rw [State.ssdUpTo, ← s.length_windowDiffs p q, List.take_length]

theorem State.ssdUpTo_eq_partialSsd {k : Nat} (hk : k ≤ p.w * p.h) : (s.ssdUpTo p q k : Int) = partialSsd s p q k := by
  rw [State.ssdUpTo, State.windowDiffs, sum_take_map_raster _ _ _ hk, Nat.cast_sum]
  exact Finset.sum_congr rfl fun m _ => cast_sqDiff _ _

theorem State.sum_windowDiffs_eq_exactSsd : ((s.windowDiffs p q).sum : Int) = exactSsd s p q := by
  rw [State.windowDiffs, sum_map_raster, Nat.cast_sum]
  refine Finset.sum_congr rfl fun i _ => ?_
  rw [Nat.cast_sum]
  exact Finset.sum_congr rfl fun j _ => cast_sqDiff _ _

theorem State.ssdUpTo_le_sum (k : Nat) : s.ssdUpTo p q k ≤ (s.windowDiffs p q).sum :=
  (List.take_sublist k _).sum_le_sum fun _ _ => Nat.zero_le _

/-- One more sample adds at most 255^2. -/
theorem State.ssdUpTo_succ_le (k : Nat) : s.ssdUpTo p q (k + 1) ≤ s.ssdUpTo p q k + 65025 := by
  rw [State.ssdUpTo, List.take_add_one, List.sum_append]
  refine Nat.add_le_add_left ?_ _
  cases hd : (s.windowDiffs p q)[k]? with
  | none => exact Nat.zero_le _
  | some d => simpa using s.windowDiffs_le p q d (List.mem_of_getElem? hd)

/-- The sum of all squared differences of a legal window stays below 2^32 (R157). -/
theorem State.sum_windowDiffs_le (h : sized p) : (s.windowDiffs p q).sum ≤ 4261478400 := by
  have hsum := sum_le_of_forall_le _ _ (s.windowDiffs_le p q)
  rw [s.length_windowDiffs] at hsum
  have hsamples := samples_le_of_sized h
  omega

theorem State.ssdUpTo_le (h : sized p) (k : Nat) : s.ssdUpTo p q k ≤ 4261478400 :=
  (s.ssdUpTo_le_sum k).trans (s.sum_windowDiffs_le h)

/-- No sum of a legal window wraps in RESULT0 (R157). -/
theorem State.toNat_ofNat_ssdUpTo (h : sized p) (k : Nat) :
    (BitVec.ofNat 32 (s.ssdUpTo p q k)).toNat = s.ssdUpTo p q k := by
  have hle := s.ssdUpTo_le (q := q) h k
  rw [BitVec.toNat_ofNat, Nat.mod_eq_of_lt (by omega)]

theorem State.toNat_ofNat_sum_windowDiffs (h : sized p) :
    (BitVec.ofNat 32 (s.windowDiffs p q).sum).toNat = (s.windowDiffs p q).sum := by
  rw [← s.ssdUpTo_all]
  exact s.toNat_ofNat_ssdUpTo h _

/-- The squared differences do not depend on which window comes first. -/
theorem State.windowDiffs_comm (hw : p.w = q.w) (hh : p.h = q.h) : s.windowDiffs p q = s.windowDiffs q p := by
  rw [State.windowDiffs, State.windowDiffs, hw, hh]
  exact List.map_congr_left fun _ _ => sqDiff_comm _ _

/-- The sum is 0 exactly on windows whose samples are equal pair by pair. -/
theorem State.sum_windowDiffs_eq_zero : (s.windowDiffs p q).sum = 0 ↔ ∀ i j : Nat, j < p.w → i < p.h →
    sampleAt s p (p.x + j) (p.y + i) = sampleAt s q (q.x + j) (q.y + i) := by
  simp only [List.sum_eq_zero_iff, State.windowDiffs, List.forall_mem_map, mem_raster, sqDiff_eq_zero, Prod.forall]
  exact ⟨fun h i j hj hi => h j i ⟨hj, hi⟩, fun h j i ⟨hj, hi⟩ => h i j hj hi⟩

end Sums

/-! ## SSD and SSDB, case by case (R153, R154) -/

/-- Where the loop of R154 ends: after `k` samples, no sum before having reached the limit, and this one, unless no sample is
left. -/
structure State.StopsAt (s : State) (p q : Overlay) (k : Nat) : Prop where
  pos : 1 ≤ k
  le : k ≤ p.w * p.h
  below : ∀ m, 1 ≤ m → m < k → s.ssdUpTo p q m < s.ssdLimit.toNat
  reached : k < p.w * p.h → s.ssdLimit.toNat ≤ s.ssdUpTo p q k

/-- The sum at the end is less than one squared difference above a limit of at least 1. -/
theorem State.StopsAt.ssdUpTo_lt {s : State} {p q : Overlay} {k : Nat} (h : s.StopsAt p q k) (hlim : 0 < s.ssdLimit.toNat) :
    s.ssdUpTo p q k < s.ssdLimit.toNat + 65025 := by
  obtain ⟨m, rfl⟩ := Nat.exists_eq_add_of_le' h.pos
  have hsucc := s.ssdUpTo_succ_le (p := p) (q := q) m
  have hbelow : s.ssdUpTo p q m < s.ssdLimit.toNat := by
    rcases Nat.eq_zero_or_pos m with rfl | hm
    · exact hlim
    · exact h.below m hm (Nat.lt_succ_self m)
  omega

/-- Below the limit the loop goes through every sample. -/
theorem State.StopsAt.eq_all {s : State} {p q : Overlay} {k : Nat} (h : s.StopsAt p q k)
    (hsum : (s.windowDiffs p q).sum < s.ssdLimit.toNat) : k = p.w * p.h := by
  by_contra hne
  have hreached := h.reached (lt_of_le_of_ne h.le hne)
  have hle := s.ssdUpTo_le_sum (p := p) (q := q) k
  omega

/-- The loop of the model stops where R154's does, with the sum of the samples it took. -/
theorem State.boundedSum_windowDiffs (s : State) {p q : Overlay} (h : sized p) : ∃ k, s.StopsAt p q k ∧
    boundedSum s.ssdLimit.toNat (s.windowDiffs p q) 0 0 = (s.ssdUpTo p q k, k) := by
  obtain ⟨k, hle, hsum, hbelow, hreached⟩ := boundedSum_spec s.ssdLimit.toNat (s.windowDiffs p q) 0 0
  simp only [Nat.zero_add, s.length_windowDiffs] at hle hsum hbelow hreached
  have hpos : 1 ≤ k := by
    by_contra hzero
    obtain ⟨hk, -⟩ := hreached (by have := samples_pos_of_sized h; omega)
    omega
  exact ⟨k, ⟨hpos, hle, hbelow, fun hk => (hreached hk).2⟩, hsum⟩

theorem comparable_symm {s : State} {p q : Overlay} (h : comparable s p q) : comparable s q p := by
  obtain ⟨hp, hq, hw, hh, hpin, hqin⟩ := h
  exact ⟨hq, hp, hw.symm, hh.symm, hqin, hpin⟩

/-- A window that passes the checks beside another passes them beside itself. -/
theorem comparable_self {s : State} {p q : Overlay} (h : comparable s p q) : comparable s p p := by
  obtain ⟨hp, -, -, -, hpin, -⟩ := h
  exact ⟨hp, hp, rfl, rfl, hpin, hpin⟩

section Ssd

variable {s : State} {a b : Nat}

theorem State.ssdChecks_eq_none {p q : Overlay} (h : comparable s p q) : s.ssdChecks p q = none := by
  obtain ⟨hp, hq, hw, hh, hpin, hqin⟩ := h
  rw [← Overlay.winOk_iff_placed] at hpin hqin
  rw [← Overlay.sizeOk_iff_sized] at hp hq
  exact (windowChecks_eq_none ..).2 ⟨hp, hq, hw, hh, by rw [hpin, hqin]; rfl⟩

/-- SSD and SSDB share their errors: the first check that fails. -/
theorem ssdErrors_of_checks {p q : Overlay} {o : Host.Outcome State Fault Refusal}
    (hends : ∀ c, s.ssdChecks p q = some c → o = .next (s.ended c.code)) : SsdErrors s p q o :=
  windowErrors (by rw [Bool.and_eq_true, Overlay.winOk_iff_placed, Overlay.winOk_iff_placed]) hends

theorem exec_ssd_of_error {c : ErrCode} (h : s.ssdChecks (s.overlay a) (s.overlay b) = some c) :
    exec (.ssd a b) s = .next (s.ended c.code) := by
  rw [exec_eq, completionOf, State.ssdCompletion, h]
  exact congrArg _ (s.fail_eq_ended c)

theorem exec_ssdb_of_error {c : ErrCode} (h : s.ssdChecks (s.overlay a) (s.overlay b) = some c) :
    exec (.ssdb a b) s = .next (s.ended c.code) := by
  rw [exec_eq, completionOf, State.ssdbCompletion, h]
  exact congrArg _ (s.fail_eq_ended c)

theorem exec_ssd_of_comparable (h : comparable s (s.overlay a) (s.overlay b)) :
    exec (.ssd a b) s = .next { s.ended 0 with
      result0 := BitVec.ofNat 32 (s.windowDiffs (s.overlay a) (s.overlay b)).sum, result1 := 0,
      result2 := BitVec.ofNat 32 ((s.overlay a).w * (s.overlay a).h) } := by
  rw [exec_eq, completionOf, State.ssdCompletion, State.ssdChecks_eq_none h]
  exact congrArg _ (s.complete_results ..)

theorem exec_ssdb_of_comparable (h : comparable s (s.overlay a) (s.overlay b)) :
    ∃ k, s.StopsAt (s.overlay a) (s.overlay b) k ∧ exec (.ssdb a b) s = .next { s.ended 0 with
      result0 := BitVec.ofNat 32 (s.ssdUpTo (s.overlay a) (s.overlay b) k),
      result1 := if s.ssdLimit.toNat ≤ s.ssdUpTo (s.overlay a) (s.overlay b) k then 1 else 0,
      result2 := BitVec.ofNat 32 k } := by
  have ⟨hsized, _⟩ := h
  obtain ⟨k, hstops, hsum⟩ := s.boundedSum_windowDiffs (q := s.overlay b) hsized
  refine ⟨k, hstops, ?_⟩
  rw [exec_eq, completionOf, State.ssdbCompletion, State.ssdChecks_eq_none h, hsum]
  dsimp only [resultWords]
  rw [State.complete_results, apply_ite (BitVec.ofNat 32)]
  rfl

end Ssd

/-! ## The obligations of SSD and SSDB -/

/-- Settles O55: the checks in their order, then the sum over the raster as the double sum. -/
theorem ssdSumsTheSquares : Obligations.SsdSumsTheSquares := by
  refine ⟨fun p hp q hq => decode_ssd_word hp hq, reservedBitsFail (by decide), ?_⟩
  rintro s a b p q rfl rfl
  refine ⟨ssdErrors_of_checks fun _ => exec_ssd_of_error, fun h => ⟨_, exec_ssd_of_comparable h, ?_⟩⟩
  obtain ⟨hsized, -⟩ := h
  rw [s.toNat_ofNat_sum_windowDiffs hsized, s.sum_windowDiffs_eq_exactSsd]

/-- Settles O56: the loop stops at `k` samples, whose sum RESULT0 holds in full. -/
theorem ssdbStopsAtTheLimit : Obligations.SsdbStopsAtTheLimit := by
  refine ⟨fun p hp q hq => decode_ssdb_word hp hq, reservedBitsFail (by decide), ?_⟩
  rintro s a b p q rfl rfl
  refine ⟨ssdErrors_of_checks fun _ => exec_ssdb_of_error, fun h => ?_⟩
  obtain ⟨k, hstops, hexec⟩ := exec_ssdb_of_comparable h
  obtain ⟨hsized, -⟩ := h
  have hresult := s.toNat_ofNat_ssdUpTo (q := s.overlay b) hsized k
  refine ⟨_, k, by rw [hexec, hresult], hstops.pos, hstops.le, ?_, fun m hm hmk => ?_, fun hk => ?_, ?_, fun _ hlim => ?_⟩
  · rw [hresult, s.ssdUpTo_eq_partialSsd hstops.le]
  · rw [← s.ssdUpTo_eq_partialSsd (hmk.le.trans hstops.le)]
    exact_mod_cast hstops.below m hm hmk
  · rw [← s.ssdUpTo_eq_partialSsd hstops.le]
    exact_mod_cast hstops.reached hk
  · rw [hresult, ← s.sum_windowDiffs_eq_exactSsd]
    exact_mod_cast s.ssdUpTo_le_sum k
  · rw [hresult]
    exact hstops.ssdUpTo_lt hlim

/-- Settles O57: below the limit the loop takes every sample; it ends before the last one only at the limit. -/
theorem ssdbKeepsTheContract : Obligations.SsdbKeepsTheContract := by
  intro s a b h
  obtain ⟨k, hstops, hexec⟩ := exec_ssdb_of_comparable h
  refine ⟨_, _, exec_ssd_of_comparable h, hexec, ?_⟩
  obtain ⟨hsized, -⟩ := h
  rw [s.toNat_ofNat_sum_windowDiffs hsized, s.toNat_ofNat_ssdUpTo hsized]
  refine ⟨fun hlt => ?_, fun hle => ?_, s.ssdUpTo_le_sum k⟩
  · obtain rfl := hstops.eq_all hlt
    rw [s.ssdUpTo_all]
    exact ⟨rfl, rfl, if_neg (Nat.not_le.2 hlt)⟩
  · have hreached : s.ssdLimit.toNat ≤ s.ssdUpTo (s.overlay a) (s.overlay b) k := by
      rcases hstops.le.lt_or_eq with hk | rfl
      · exact hstops.reached hk
      · exact s.ssdUpTo_all ▸ hle
    exact ⟨hreached, if_pos hreached⟩

/-- Settles O58: every sum is one of at most 65536 terms of at most 65025. -/
theorem noSumOverflows : Obligations.NoSumOverflows := by
  refine ⟨fun s p q hsized => ⟨?_, s.windowDiffs_le p q, s.sum_windowDiffs_eq_exactSsd, s.sum_windowDiffs_le hsized,
    by decide, fun k hk => ⟨s.ssdUpTo_eq_partialSsd hk, ?_⟩, fun lim => ?_⟩, fun s a b h => ?_⟩
  · rw [s.length_windowDiffs]
    exact samples_le_of_sized hsized
  · rw [← s.ssdUpTo_eq_partialSsd hk]
    exact ⟨Int.natCast_nonneg _, by exact_mod_cast s.ssdUpTo_le hsized k⟩
  · obtain ⟨k, -, hsum, -⟩ := boundedSum_spec lim (s.windowDiffs p q) 0 0
    rw [hsum, Nat.zero_add]
    exact s.ssdUpTo_le hsized k
  · obtain ⟨k, hstops, hexec⟩ := exec_ssdb_of_comparable h
    refine ⟨_, _, exec_ssd_of_comparable h, hexec, ?_⟩
    obtain ⟨hsized, -⟩ := h
    have hcount : (BitVec.ofNat 32 k).toNat = k := by
      have := hstops.le.trans (samples_le_of_sized hsized)
      rw [BitVec.toNat_ofNat, Nat.mod_eq_of_lt (by omega)]
    rw [s.toNat_ofNat_sum_windowDiffs hsized, s.toNat_ofNat_ssdUpTo hsized, hcount]
    exact ⟨s.sum_windowDiffs_eq_exactSsd, s.sum_windowDiffs_le hsized, s.ssdUpTo_eq_partialSsd hstops.le,
      s.ssdUpTo_le hsized k⟩

/-- A register that holds a sum of a legal window is 0 exactly when the sum is. -/
theorem State.ofNat_sum_windowDiffs_eq_zero (s : State) {p q : Overlay} (h : sized p) :
    BitVec.ofNat 32 (s.windowDiffs p q).sum = 0 ↔ (s.windowDiffs p q).sum = 0 := by
  rw [← BitVec.toNat_inj, s.toNat_ofNat_sum_windowDiffs h]
  rfl

/-- Settles O59: the squared differences are symmetric and 0 on equal samples, and no sum reaches the largest limit. -/
theorem ssdIsADistance : Obligations.SsdIsADistance := by
  intro s a b h
  have ⟨hsized, _, hw, hh, _⟩ := h
  have hlimit : (BitVec.ofNat 32 (s.windowDiffs (s.overlay a) (s.overlay b)).sum).toNat < (0xFFFFFFFF : Word).toNat := by
    rw [s.toNat_ofNat_sum_windowDiffs hsized]
    exact (s.sum_windowDiffs_le hsized).trans_lt (by decide)
  have hssd := exec_ssd_of_comparable (s := { s with ssdLimit := 0xFFFFFFFF }) h
  obtain ⟨t, w, hexec, hexecb, hbelow, -⟩ := ssdbKeepsTheContract { s with ssdLimit := 0xFFFFFFFF } a b h
  obtain rfl := Host.Outcome.next.inj (hssd.symm.trans hexec)
  refine ⟨_, _, _, w, exec_ssd_of_comparable h, exec_ssd_of_comparable (comparable_symm h),
    exec_ssd_of_comparable (comparable_self h), hexecb, ?_, ?_, ?_, hbelow hlimit⟩
  · exact congrArg (fun l : List Nat => BitVec.ofNat 32 l.sum) (s.windowDiffs_comm hw hh)
  · exact (s.ofNat_sum_windowDiffs_eq_zero hsized).2 (s.sum_windowDiffs_eq_zero.2 fun _ _ _ _ => rfl)
  · exact (s.ofNat_sum_windowDiffs_eq_zero hsized).trans s.sum_windowDiffs_eq_zero

/-! ## HPEL, case by case (R155, R156) -/

theorem halfAvg_eq_halfAverage (r : HpelRound) (a b : Nat) : halfAvg r a b = halfAverage r a b := by
  cases r <;> exact Nat.shiftRight_eq_div_pow _ 1

/-- The average of two samples is a sample. -/
theorem halfAverage_lt (r : HpelRound) {a b : Nat} (ha : a < 256) (hb : b < 256) : halfAverage r a b < 256 := by
  unfold halfAverage
  split <;> omega

/-- What R155 puts at column `j` and row `i` of the destination, from the samples as they stand in `s`. -/
def State.hpelAverage (s : State) (src : Overlay) (dx dy : Int) (j i : Nat) : Nat :=
  halfAverage s.params.hpelRound (sampleAt s src (src.x + j) (src.y + i)) (sampleAt s src (src.x + dx + j) (src.y + dy + i))

theorem State.hpelAverage_lt (s : State) (src : Overlay) (dx dy : Int) (j i : Nat) : s.hpelAverage src dx dy j i < 256 :=
  halfAverage_lt _ (s.pix_lt ..) (s.pix_lt ..)

/-- The state after an HPEL that passes its checks: all the samples written at once. -/
def State.afterHpel (s : State) (src dst : Overlay) (dx dy : Int) : State :=
  { s.ended 0 with pixmem := s.pixmem.writeAll (s.hpelSamples src dst dx dy) }

section Hpel

variable {s : State} {src dst : Overlay} {dx dy : Int}

/-- The shift given, HPEL's errors are those of its window checks, in the same order. -/
theorem hpelErrors_of_checks {cx cy : Option Int} {o : Host.Outcome State Fault Refusal}
    (hinvalid : cx = none ∨ cy = none → o = .next (s.ended 7))
    (hends : ∀ x y c, cx = some x → cy = some y → s.hpelChecks src dst x y = some c → o = .next (s.ended c.code)) :
    HpelErrors s src dst cx cy o := by
  refine ⟨hinvalid, fun x y hx hy => windowErrors ?_ fun c => hends x y c hx hy⟩
  simp only [Bool.and_eq_true, Overlay.winOk_iff_placed, and_assoc]

theorem State.hpelChecks_eq_none (h : filterable s src dst dx dy) : s.hpelChecks src dst dx dy = none := by
  obtain ⟨hsrc, hdst, hw, hh, hsrcIn, hshiftedIn, hdstIn⟩ := h
  rw [← Overlay.winOk_iff_placed] at hsrcIn hshiftedIn hdstIn
  rw [← Overlay.sizeOk_iff_sized] at hsrc hdst
  exact (windowChecks_eq_none ..).2 ⟨hsrc, hdst, hw, hh, by rw [hsrcIn, hshiftedIn, hdstIn]; rfl⟩

theorem State.hpelCompletion_of_error {c : ErrCode} (h : s.hpelChecks src dst dx dy = some c) :
    s.hpelCompletion src dst (some dx) (some dy) = .error c := by
  simp only [State.hpelCompletion, h]

theorem State.hpelCompletion_of_filterable (h : filterable s src dst dx dy) :
    s.hpelCompletion src dst (some dx) (some dy) = { code := .ok, samples := s.hpelSamples src dst dx dy } := by
  simp only [State.hpelCompletion, State.hpelChecks_eq_none h]

theorem exec_hpel_of_error {a b : Nat} {cx cy : ShiftCode} {c : ErrCode} (hx : shiftValue cx = some dx)
    (hy : shiftValue cy = some dy) (h : s.hpelChecks (s.overlay a) (s.overlay b) dx dy = some c) :
    exec (.hpel a b cx cy) s = .next (s.ended c.code) := by
  rw [exec_eq, completionOf, hx, hy, State.hpelCompletion_of_error h]
  exact congrArg _ (s.fail_eq_ended c)

theorem exec_hpel_of_filterable {a b : Nat} {cx cy : ShiftCode} (hx : shiftValue cx = some dx)
    (hy : shiftValue cy = some dy) (h : filterable s (s.overlay a) (s.overlay b) dx dy) :
    exec (.hpel a b cx cy) s = .next (s.afterHpel (s.overlay a) (s.overlay b) dx dy) := by
  rw [exec_eq, completionOf, hx, hy, State.hpelCompletion_of_filterable h]
  simp only [State.complete, State.writeResults, State.writeCursor, Status.complete_eq_after]
  rfl

/-- The averages HPEL writes, each at the address of its destination sample. -/
theorem State.mem_hpelSamples {w : Nat × Byte} : w ∈ s.hpelSamples src dst dx dy ↔ ∃ j i : Nat, j < src.w ∧ i < src.h ∧
    w = ((dst.pixAddr (dst.x + j) (dst.y + i)).toNat, BitVec.ofNat 8 (s.hpelAverage src dx dy j i)) := by
  simp only [State.hpelSamples, List.mem_map, mem_raster, Prod.exists, halfAvg_eq_halfAverage, and_assoc, eq_comm (b := w)]
  exact Iff.rfl

/-- The address of a sample of a window in place is no negative number. -/
theorem Overlay.pixAddr_nonneg {o : Overlay} {size : Nat} {x y : Int} (h : placed o size x y) {j i : Nat} (hj : j < o.w)
    (hi : i < o.h) : 0 ≤ o.pixAddr (x + j) (y + i) := by
  obtain ⟨-, -, -, -, hnonneg, -⟩ := o.winOk_inside size x y ((o.winOk_iff_placed size x y).2 h) j i hj hi
  exact hnonneg

section Destination

variable (h : placed dst s.params.pixSize dst.x dst.y) (hw : src.w = dst.w) (hh : src.h = dst.h)
include h hw hh

/-- At the index of a destination sample HPEL writes that sample's average and no other: different samples of a window have
different addresses. -/
theorem State.hpelSamples_unique {j i : Nat} (hj : j < dst.w) (hi : i < dst.h) : ∀ w ∈ s.hpelSamples src dst dx dy,
    w.1 = (dst.pixAddr (dst.x + j) (dst.y + i)).toNat → w.2 = BitVec.ofNat 8 (s.hpelAverage src dx dy j i) := by
  intro w hmem haddr
  obtain ⟨j', i', hj', hi', rfl⟩ := State.mem_hpelSamples.1 hmem
  have hnonneg := Overlay.pixAddr_nonneg h hj hi
  have hnonneg' := Overlay.pixAddr_nonneg h (hw ▸ hj') (hh ▸ hi')
  obtain ⟨hx, -, hwidth, -⟩ := h
  obtain ⟨rfl, rfl⟩ := dst.pixAddr_inj dst.x dst.y hx hwidth j' i' j i (hw ▸ hj') hj (by omega)
  rfl

/-- A sample of the destination reads as its average. -/
theorem State.sampleAt_afterHpel {j i : Nat} (hj : j < dst.w) (hi : i < dst.h) :
    sampleAt (s.afterHpel src dst dx dy) dst (dst.x + j) (dst.y + i) = s.hpelAverage src dx dy j i := by
  have hread := Memory.byteAt_writeAll_of_mem _ s.pixmem _ _
    (State.mem_hpelSamples.2 ⟨j, i, hw ▸ hj, hh ▸ hi, rfl⟩) (State.hpelSamples_unique (dx := dx) (dy := dy) h hw hh hj hi)
  calc ((s.afterHpel src dst dx dy).pixSample (dst.pixAddr (dst.x + j) (dst.y + i)).toNat).toNat
      = (BitVec.ofNat 8 (s.hpelAverage src dx dy j i)).toNat := by
        rw [State.pixSample, State.afterHpel, hread, Option.getD_some]
    _ = s.hpelAverage src dx dy j i := Nat.mod_eq_of_lt (s.hpelAverage_lt src dx dy j i)

/-- An index that is no destination sample's reads as before. -/
theorem State.pixSample_afterHpel {addr : Nat}
    (houtside : ∀ i j : Nat, j < dst.w → i < dst.h → dst.pixAddr (dst.x + j) (dst.y + i) ≠ addr) :
    (s.afterHpel src dst dx dy).pixSample addr = s.pixSample addr := by
  refine congrArg (fun o : Option Byte => o.getD _) (Memory.byteAt_writeAll_of_not_mem _ s.pixmem addr fun w hmem => ?_)
  obtain ⟨j, i, hj, hi, rfl⟩ := State.mem_hpelSamples.1 hmem
  have hnonneg := Overlay.pixAddr_nonneg h (hw ▸ hj) (hh ▸ hi)
  have hne := houtside i j (hw ▸ hj) (hh ▸ hi)
  dsimp only
  omega

end Destination

end Hpel

/-! ## The obligation of HPEL -/

/-- Settles O60: every average is computed from the samples before the command, and no two of them go to one address. -/
theorem hpelAveragesIntoTheDestination : Obligations.HpelAveragesIntoTheDestination := by
  refine ⟨fun s hs d hd x y => decode_hpel_word x y hs hd, reservedBitsFail (by decide), ?_⟩
  rintro s a b cx cy src dst rfl rfl
  refine ⟨hpelErrors_of_checks (exec_hpel_of_invalid s a b) fun _ _ _ => exec_hpel_of_error, fun dx dy hx hy h => ?_⟩
  have ⟨_, _, hw, hh, _, _, hplaced⟩ := h
  exact ⟨_, exec_hpel_of_filterable hx hy h, rfl, fun i j hj hi => State.sampleAt_afterHpel hplaced hw hh hj hi,
    fun addr houtside => State.pixSample_afterHpel hplaced hw hh houtside⟩

end Sys2Proof.Machine

/-! The exceptions (`60_exceptions.md`): which completions fail with a code alone, which three commands may still write
results, then the obligation of the family. -/

namespace Sys2Proof.Machine

/-! ## Completions that fail with their code alone (R183) -/

/-- On a code other than OK the completion carries the code and nothing else: no result, no cursor, no sample. -/
def Completion.FailsBare (c : Completion) : Prop := c.code ≠ .ok → c = .error c.code

theorem Completion.failsBare_error (e : ErrCode) : (Completion.error e).FailsBare := fun _ => rfl

theorem Completion.failsBare_of_ok {c : Completion} (h : c.code = .ok) : c.FailsBare := fun hfail => absurd h hfail

/-- A check in front of a completion that fails bare fails bare too. -/
theorem Completion.failsBare_ite {p : Prop} [Decidable p] {e : ErrCode} {c : Completion} (h : c.FailsBare) :
    (if p then .error e else c).FailsBare := by
  split
  · exact failsBare_error e
  · exact h

theorem State.readBits_failsBare (s : State) (n : Nat) : (s.readBits n).FailsBare :=
  Completion.failsBare_ite (Completion.failsBare_of_ok rfl)

theorem State.peekBits_failsBare (s : State) (n : Nat) : (s.peekBits n).FailsBare :=
  Completion.failsBare_ite (Completion.failsBare_of_ok rfl)

/-- A decode that fails consumes nothing (`41_vlc.md` R127, R129). -/
theorem State.decodePair_failsBare (s : State) (t : VlcTable) (ctx : Nat) : (s.decodePair t ctx).FailsBare := by
  unfold State.decodePair
  split
  · exact Completion.failsBare_error _
  · exact Completion.failsBare_of_ok rfl

theorem State.ssdCompletion_failsBare (s : State) (p q : Overlay) : (s.ssdCompletion p q).FailsBare := by
  unfold State.ssdCompletion
  split
  · exact Completion.failsBare_error _
  · exact Completion.failsBare_of_ok rfl

theorem State.ssdbCompletion_failsBare (s : State) (p q : Overlay) : (s.ssdbCompletion p q).FailsBare := by
  unfold State.ssdbCompletion
  split
  · exact Completion.failsBare_error _
  · exact Completion.failsBare_of_ok rfl

/-- An invalid shift and a failed check alike leave every sample (`42_pixel.md` R155). -/
theorem State.hpelCompletion_failsBare (s : State) (src dst : Overlay) (dx dy : Option Int) :
    (s.hpelCompletion src dst dx dy).FailsBare := by
  unfold State.hpelCompletion
  split
  · split
    · exact Completion.failsBare_error _
    · exact Completion.failsBare_of_ok rfl
  · exact Completion.failsBare_error _

/-- The three commands whose rules give results with an error (R183). -/
def ResultsOnError (i : Instr) : Prop := (∃ a b, i = .encTz a b) ∨ (∃ a b, i = .encRb a b) ∨ i = .dec1

/-- A command fails with its code alone, unless it is one of the three, and those write results alone. -/
theorem completionOf_failsBare_or_results (i : Instr) (s : State) :
    (completionOf i s).FailsBare ∨
      ResultsOnError i ∧ ∃ c a b d, completionOf i s = { code := c, results := some (a, b, d) } := by
  cases i with
  | nop => exact .inl (Completion.failsBare_of_ok rfl)
  | rdbit => exact .inl (s.readBits_failsBare 1)
  | rdbits n => exact .inl (Completion.failsBare_ite (s.readBits_failsBare n))
  | pkbits n => exact .inl (Completion.failsBare_ite (s.peekBits_failsBare n))
  | decTz tc => exact .inl (s.decodePair_failsBare s.tzTable tc)
  | decRb zl => exact .inl (s.decodePair_failsBare s.rbTable zl)
  | ssd p q => exact .inl (s.ssdCompletion_failsBare _ _)
  | ssdb p q => exact .inl (s.ssdbCompletion_failsBare _ _)
  | hpel src dst dx dy => exact .inl (s.hpelCompletion_failsBare _ _ _ _)
  | encTz tz tc => exact .inr ⟨.inl ⟨tz, tc, rfl⟩, _, _, _, _, rfl⟩
  | encRb rb zl => exact .inr ⟨.inr (.inl ⟨rb, zl, rfl⟩), _, _, _, _, rfl⟩
  | dec1 => exact .inr ⟨.inr (.inr rfl), _, _, _, _, rfl⟩

/-! ## The state after a failure -/

/-- Code 0 is OK's (R180). -/
theorem ErrCode.code_ne_zero {c : ErrCode} : c.code ≠ 0 ↔ c ≠ .ok := by cases c <;> decide

/-- A code other than 0 sets ERR (`10_state.md` R39). -/
theorem Status.after_err {st : Status} {c : BitVec 4} (h : c ≠ 0) : (st.after c).err = true := by
  simpa [Status.after] using .inr h

/-- A completion that fails bare and fails is the claims' end of a command with its code. -/
theorem State.complete_of_failsBare (s : State) {c : Completion} (hbare : c.FailsBare) (hcode : c.code ≠ .ok) :
    s.complete c = s.ended c.code.code := by
  rw [hbare hcode]
  exact s.fail_eq_ended c.code

/-! ## The obligation of the exceptions -/

/-- Settles O32: a command is its completion, which fails bare or is one of the three that write results alone. -/
theorem failedCommandWritesOnlyItsCode : Obligations.FailedCommandWritesOnlyItsCode := by
  refine ⟨fun i s t hexec hfail => ?_, fun w s hreject => ?_⟩
  · obtain rfl := exec_next hexec
    refine ⟨?_, ?_⟩
    · rw [s.status_complete_eq_after]
      exact Status.after_err hfail
    · rw [State.complete_status] at hfail ⊢
      have hcode : (completionOf i s).code ≠ .ok := ErrCode.code_ne_zero.1 hfail
      rcases completionOf_failsBare_or_results i s with hbare | ⟨hthree, c, a, b, d, hresults⟩
      · have hended := s.complete_of_failsBare hbare hcode
        exact ⟨fun _ => hended, s.result0, s.result1, s.result2, hended⟩
      · refine ⟨fun ⟨htz, hrb, hdec1⟩ => ?_, a, b, d, ?_⟩
        · rcases hthree with ⟨x, y, h⟩ | ⟨x, y, h⟩ | h
          · exact absurd h (htz x y)
          · exact absurd h (hrb x y)
          · exact absurd h hdec1
        · rw [hresults]
          exact s.complete_results c a b d
  · cases hdecode : decode w with
    | ok i => exact absurd hdecode (hreject i)
    | error e => exact ⟨runWord_of_decode_error s hdecode, Status.after_err (by decide)⟩

end Sys2Proof.Machine

/-! Reset (`70_reset_and_hazards.md`): what the state after reset holds, then the obligations of that family. -/

namespace Sys2Proof.Machine

open Sys2Proof.Claims

/-! ## The state after reset (R211) -/

section AfterReset

variable (p : Params) (tz rb : VlcTable) (epoch : Nat)

theorem State.afterReset_overlays : (State.afterReset p tz rb epoch).overlays = Vector.replicate 4 .zero := rfl

/-- Every descriptor is zero, also at an index no command can name. -/
theorem State.afterReset_overlay (n : Nat) : (State.afterReset p tz rb epoch).overlay n = .zero := by
  rw [State.overlay, State.afterReset_overlays, Vector.getElem?_replicate]
  split <;> rfl

theorem State.csrValue_afterReset (r : Csr) : (State.afterReset p tz rb epoch).csrValue r = 0 := by
  have descriptor (n : Fin 4) : (State.afterReset p tz rb epoch).overlays[n] = .zero :=
    Vector.getElem_replicate n.isLt
  cases r with
  | ovBase n | ovPdim n | ovOrg n | ovSize n =>
    rw [State.csrValue, descriptor]
    rfl
  | _ => rfl

/-- No window of a descriptor is legal: its width is 0 (`42_pixel.md` R151). -/
theorem State.not_sized_overlay_afterReset (n : Nat) : ¬sized ((State.afterReset p tz rb epoch).overlay n) := by
  rw [State.afterReset_overlay, sized]
  decide

/-- An aligned offset is a CSR's, which is zero, or reserved. -/
theorem State.csrRead_afterReset {off : Nat} (halign : off % 4 = 0) (hlt : off < 0x100) :
    (State.afterReset p tz rb epoch).csrRead 4 off = .ok 0 := by
  rcases offset_cases halign hlt with ⟨r, rfl⟩ | hreserved
  · rw [State.csrRead_offset, State.csrValue_afterReset]
  · exact State.csrRead_reserved _ hreserved

/-- The block is idle, so it takes a command. -/
theorem State.csrWrite_cmd_afterReset (w : Word) :
    (State.afterReset p tz rb epoch).csrWrite 4 0 w = .ok ((State.afterReset p tz rb epoch).issue w) :=
  (State.csrWrite_offset _ .cmd w).trans (congrArg _ (State.csrWriteAt_of_idle .cmd w rfl))

/-- The invariant does not speak of the epoch, the one field in which this state and a reset of it differ. -/
theorem State.Inv.afterReset : (State.afterReset p tz rb epoch).Inv :=
  { State.Inv.applyReset (State.afterReset p tz rb epoch) with }

theorem State.cursor_afterReset : (State.afterReset p tz rb epoch).cursor = 0 := rfl

theorem State.peekOff_afterReset : (State.afterReset p tz rb epoch).peekOff.toNat = 0 := rfl

theorem streamEnd_afterReset : streamEnd (State.afterReset p tz rb epoch) = 0 := rfl

end AfterReset

theorem schedule_of_inputs_reset {s : State} {rest : List Input} (h : s.inputs = .reset :: rest) :
    schedule s = .next (State.applyReset { s with inputs := rest }) := by
  rw [schedule, h]

/-! ## Decode2 where no bit is left (`41_vlc.md` R125) -/

section NoBitLeft

variable {s : State} {t : VlcTable} {ctx : Nat}

/-- Lengths of which the column has no code decide nothing. -/
theorem undecidedBelow_of_no_code {len : Nat} (h : ∀ l, 1 ≤ l → l < len → ¬hasLength t ctx l) :
    undecidedBelow s t ctx len := fun l hpos hlt hlen => absurd hlen (h l hpos hlt)

/-- The shortest code of the column decides: there is no bit left for it. -/
theorem State.vlcDecode_oob_of_no_bit (hend : streamEnd s ≤ s.cursor)
    (hcode : ∃ len, 1 ≤ len ∧ len ≤ 16 ∧ hasLength t ctx len) : s.vlcDecode t ctx = .error .bsOob := by
  classical
  obtain ⟨len, ⟨hpos, hle, hlen⟩, hshortest⟩ := Nat.findX hcode
  exact State.vlcDecode_oob hpos hle hlen (by omega) <| undecidedBelow_of_no_code fun l hl hlt hshorter =>
    hshortest l hlt ⟨hl, by omega, hshorter⟩

theorem State.vlcDecode_noMatch_of_no_code (h : ∀ len, 1 ≤ len → len ≤ 16 → ¬hasLength t ctx len) :
    s.vlcDecode t ctx = .error .vlcNoMatch :=
  State.vlcDecode_noMatch (undecidedBelow_of_no_code fun l hpos hlt => h l hpos (by omega))

theorem exec_decTz_of_error {c : ErrCode} (h : s.vlcDecode s.tzTable ctx = .error c) :
    exec (.decTz ctx) s = .next (s.ended c.code) :=
  (exec_eq _ s).trans (congrArg _ (State.complete_decodePair_of_error h))

theorem exec_decRb_of_error {c : ErrCode} (h : s.vlcDecode s.rbTable ctx = .error c) :
    exec (.decRb ctx) s = .next (s.ended c.code) :=
  (exec_eq _ s).trans (congrArg _ (State.complete_decodePair_of_error h))

end NoBitLeft

/-! ## The pixel commands on descriptors of no legal size (`42_pixel.md` R151) -/

section NotSized

variable {s : State} {a b : Nat}

theorem State.ssdChecks_of_not_sized {p q : Overlay} (h : ¬sized p) : s.ssdChecks p q = some .badParam :=
  windowChecks_of_not_sized fun ⟨hp, _⟩ => h hp

/-- Whatever its shift: an invalid code is BAD_PARAM too (`60_exceptions.md` R182). -/
theorem exec_hpel_of_not_sized (dx dy : ShiftCode) (h : ¬sized (s.overlay a)) :
    exec (.hpel a b dx dy) s = .next (s.ended 7) := by
  cases hx : shiftValue dx with
  | none => exact exec_hpel_of_invalid s a b (.inl hx)
  | some x =>
    cases hy : shiftValue dy with
    | none => exact exec_hpel_of_invalid s a b (.inr hy)
    | some y => exact exec_hpel_of_error hx hy (windowChecks_of_not_sized fun ⟨ha, _⟩ => h ha)

end NotSized

/-! ## The obligations of reset -/

/-- Settles O25: every CSR of the map is zero and the block is idle. -/
theorem everyCsrReadsZeroAfterReset : Obligations.EveryCsrReadsZeroAfterReset :=
  ⟨fun p tz rb epoch =>
      ⟨fun _ => State.csrRead_afterReset p tz rb epoch, rfl, State.csrWrite_cmd_afterReset p tz rb epoch⟩,
    Config.params, tzStd, rbStd, 0, rfl⟩

/-- Settles O35: the cursor and PEEK_OFF stand at the end of an empty stream, and no descriptor has a legal size. -/
theorem commandsFromReset : Obligations.CommandsFromReset := by
  rintro p tz rb epoch s rfl
  have hcursor := State.cursor_afterReset p tz rb epoch
  have hpeek := State.peekOff_afterReset p tz rb epoch
  have hend := streamEnd_afterReset p tz rb epoch
  have hsize := State.not_sized_overlay_afterReset p tz rb epoch
  obtain ⟨-, hnop, -⟩ := nopOnlyCompletes
  obtain ⟨-, -, hencTz⟩ := encTzLooksUpTheEntry
  obtain ⟨-, -, hencRb⟩ := encRbLooksUpTheEntry
  refine ⟨?rdbit, fun n hpos hn => ⟨exec_rdbits_of_oob hn (by omega), exec_pkbits_of_oob hn (by omega)⟩,
    fun n hn => ⟨exec_rdbits_of_large hn, exec_pkbits_of_large hn⟩, ?rdbitsNone, ?pkbitsNone,
    fun a b => ⟨exec_ssd_of_error (State.ssdChecks_of_not_sized (hsize a)),
      exec_ssdb_of_error (State.ssdChecks_of_not_sized (hsize a))⟩,
    fun a b dx dy => exec_hpel_of_not_sized dx dy (hsize a), hnop _,
    fun c hcode => exec_decTz_of_error (State.vlcDecode_oob_of_no_bit (by omega) hcode),
    fun c hcode => exec_decRb_of_error (State.vlcDecode_oob_of_no_bit (by omega) hcode),
    fun c hnone => exec_decTz_of_error (State.vlcDecode_noMatch_of_no_code hnone),
    fun c hnone => exec_decRb_of_error (State.vlcDecode_noMatch_of_no_code hnone),
    fun a b => ⟨hencTz _ a b, hencRb _ a b⟩, exec_dec1 _⟩
  case rdbit =>
    rw [exec_rdbit]
    exact exec_rdbits_of_oob (by omega) (by omega)
  case rdbitsNone =>
    rw [exec_rdbits_of_fits (by omega) (by omega), consumed, hcursor]
    rfl
  case pkbitsNone =>
    rw [exec_pkbits_of_fits (by omega) (by omega)]
    rfl

/-- Settles O26: the reset input is the platform's, so its turn does not depend on BUSY or PENDING. -/
theorem resetAbandonsTheCommand : Obligations.ResetAbandonsTheCommand := fun _ _ hlaunch hin =>
  (step_of_launchOk hlaunch).trans (schedule_of_inputs_reset hin)

/-- Settles O27: `State.reset` is one of the states after reset. -/
theorem resetMeetsTheInvariant : Obligations.ResetMeetsTheInvariant :=
  ⟨State.Inv.afterReset Config.params tzStd rbStd 0, State.Inv.afterReset⟩

end Sys2Proof.Machine
